-- ==== Sys2Proof/Word.lean ====
section
/-! DEFINITION. The bit-vector types of the block. Widths are those of `00_scope.md` rule R7
(`US_W` = `MS_W` = 32, `CNT_W` = 10, `N_W` = 16, `OPW_W` = 80, `RSP_W` = 10) and the byte of rule R50.
Every value is unsigned and bit 0 is the least significant (R10). UNVERIFIED, unsafe: the two time widths (D4, log entry 8). -/

namespace Sys2Proof

/-- One slot of the frame buffer, one received byte (R50). -/
abbrev Byte := BitVec 8

/-- A microsecond timestamp, `US_W` = 32 bits (R7). -/
abbrev Micros := BitVec 32

/-- A millisecond timestamp, `MS_W` = 32 bits (R7). -/
abbrev Millis := BitVec 32

/-- The position register `chan_cnt`, `CNT_W` = 10 bits (R7, R20). -/
abbrev Count := BitVec 10

/-- The operand `n` of READ, `N_W` = 16 bits, unsigned (R7, R74). -/
abbrev ChanNum := BitVec 16

/-- An operation word, `OPW_W` = 80 bits (R71). -/
abbrev OpWord := BitVec 80

/-- A response word, `RSP_W` = 10 bits (R78). -/
abbrev RspWord := BitVec 10

end Sys2Proof
end

