-- ==== Sys2Proof/Syntax.lean ====
section
/-! DEFINITION. The closed set of six operations, one constructor per row of the opcode map
(`30_encoding.md` rules R70 and R77). The operands are the fields of R76, already of their widths, so
no operand of a term is out of its field's range. -/

namespace Sys2Proof

/-- An operation of the block (R70). No operation has qualifiers or names a register. -/
inductive Instr where
  /-- `BYTE t_us, t_ms, data` (R100): one received byte with its arrival time and the millisecond clock. -/
  | byte (tUs : Micros) (tMs : Millis) (data : Byte)
  /-- `READ n` (R130): a single-channel read. -/
  | read (n : ChanNum)
  /-- `CONN t_ms` (R132): is the signal connected? -/
  | conn (tMs : Millis)
  /-- `POLL t_ms` (R134): the periodic timeout check. -/
  | poll (tMs : Millis)
  /-- `FLAG` (R136): reads `frame_received`. -/
  | flag
  /-- `INIT` (R160): the lifecycle operation. -/
  | init
deriving DecidableEq, Repr

end Sys2Proof
end

