-- ==== Sys2Proof/Decode.lean ====
section
/-! DEFINITION. The operation word: the opcode map, the decoder (total on every 80-bit word, rejecting by
name) and the encoder. From `30_encoding.md` rules R71 to R82. -/

namespace Sys2Proof

/-- Why a word is illegal (R80): it spells no operation. -/
inductive DecodeError where
  /-- The opcode is `0000` or `0111`..`1111`. -/
  | undefinedOpcode (op : BitVec 4)
  /-- The opcode is that of `mnemonic`, but some reserved bit of its format is 1. -/
  | reservedBits (mnemonic : String)
deriving DecidableEq, Repr

/-- `OPW[lo + len - 1 : lo]`, a contiguous field with its most significant bit at the higher number (R10, R76). -/
def field (lo len : Nat) (w : OpWord) : BitVec len := w.extractLsb' lo len

/-- The opcode `op = OPW[79:76]`, in every format (R71). -/
def opcodeOf (w : OpWord) : BitVec 4 := field 76 4 w

/-- `t_us = OPW[71:40]` (R72, R76). -/
def tUsOf (w : OpWord) : Micros := field 40 32 w

/-- `t_ms = OPW[39:8]`, at the same bits in formats B and T (R72, R73, R76). -/
def tMsOf (w : OpWord) : Millis := field 8 32 w

/-- `data = OPW[7:0]` (R72, R76). -/
def dataOf (w : OpWord) : Byte := field 0 8 w

/-- `n = OPW[15:0]` (R74, R76). -/
def chanOf (w : OpWord) : ChanNum := field 0 16 w

/-- The reserved bits of format B (BYTE) are 0: `OPW[75:72]` (R72). -/
def reservedZeroB (w : OpWord) : Bool := field 72 4 w == 0#4

/-- The reserved bits of format R (READ) are 0: `OPW[75:16]` (R74). -/
def reservedZeroR (w : OpWord) : Bool := field 16 60 w == 0#60

/-- The reserved bits of format T (CONN, POLL) are 0: `OPW[75:40]` and `OPW[7:0]` (R73). -/
def reservedZeroT (w : OpWord) : Bool := field 40 36 w == 0#36 && field 0 8 w == 0#8

/-- The reserved bits of format Z (FLAG, INIT) are 0: `OPW[75:0]` (R75). -/
def reservedZeroZ (w : OpWord) : Bool := field 0 76 w == 0#76

/-- The operation `i` where its format's reserved bits are 0, else a rejection that names it (R80). -/
def acceptIf (reservedZero : Bool) (mnemonic : String) (i : Instr) : Except DecodeError Instr :=
  if reservedZero then .ok i else .error (.reservedBits mnemonic)

/-- Decoding (R81): total on every word; a reserved opcode or a set reserved bit is rejected by name. -/
def decode (w : OpWord) : Except DecodeError Instr :=
  if opcodeOf w = 0x1#4 then acceptIf (reservedZeroB w) "BYTE" (.byte (tUsOf w) (tMsOf w) (dataOf w))
  else if opcodeOf w = 0x2#4 then acceptIf (reservedZeroR w) "READ" (.read (chanOf w))
  else if opcodeOf w = 0x3#4 then acceptIf (reservedZeroT w) "CONN" (.conn (tMsOf w))
  else if opcodeOf w = 0x4#4 then acceptIf (reservedZeroT w) "POLL" (.poll (tMsOf w))
  else if opcodeOf w = 0x5#4 then acceptIf (reservedZeroZ w) "FLAG" .flag
  else if opcodeOf w = 0x6#4 then acceptIf (reservedZeroZ w) "INIT" .init
  else .error (.undefinedOpcode (opcodeOf w))

/-- Encoding: the word of an operation, from the format tables R72 to R75, reserved bits 0. -/
def encode : Instr → OpWord
  | .byte tUs tMs data => 0x1#4 ++ 0#4 ++ tUs ++ tMs ++ data
  | .read n => 0x2#4 ++ 0#60 ++ n
  | .conn tMs => 0x3#4 ++ 0#36 ++ tMs ++ 0#8
  | .poll tMs => 0x4#4 ++ 0#36 ++ tMs ++ 0#8
  | .flag => 0x5#4 ++ 0#76
  | .init => 0x6#4 ++ 0#76

/-- A row of the opcode map (R77): a word `w` spells the operation iff `w &&& mask = pattern`. -/
structure OpcodeRow where
  mnemonic : String
  mask : OpWord
  pattern : OpWord
deriving DecidableEq, Repr

/-- The word spells the row's operation (R77). -/
def OpcodeRow.accepts (r : OpcodeRow) (w : OpWord) : Bool := w &&& r.mask == r.pattern

/-- The opcode map, complete (R77). -/
def opcodeMap : List OpcodeRow :=
  [ ⟨"BYTE", 0xFF000000000000000000#80, 0x10000000000000000000#80⟩,
    ⟨"READ", 0xFFFFFFFFFFFFFFFF0000#80, 0x20000000000000000000#80⟩,
    ⟨"CONN", 0xFFFFFFFFFF00000000FF#80, 0x30000000000000000000#80⟩,
    ⟨"POLL", 0xFFFFFFFFFF00000000FF#80, 0x40000000000000000000#80⟩,
    ⟨"FLAG", 0xFFFFFFFFFFFFFFFFFFFF#80, 0x50000000000000000000#80⟩,
    ⟨"INIT", 0xFFFFFFFFFFFFFFFFFFFF#80, 0x60000000000000000000#80⟩ ]

/-- The mnemonic of an operation, as the opcode map spells it (R77). -/
def mnemonicOf : Instr → String
  | .byte _ _ _ => "BYTE"
  | .read _ => "READ"
  | .conn _ => "CONN"
  | .poll _ => "POLL"
  | .flag => "FLAG"
  | .init => "INIT"

/-- The operation word whose low `nbits` bits are those of `w`, every higher bit 0 (log entry 9). -/
def tableWord (nbits w : Nat) : OpWord := BitVec.ofNat 80 (w % 2 ^ nbits)

/-- The operation the decoder reads from an instruction whose bits are `w`, of which the table gives `nbits`
and every higher bit is 0. The instruction is one 80-bit word held as a bit vector (no byte
serialisation is defined, R86); bits beyond the 80 make no operation word (DESIGN CHOICE, safe: log entry 9). -/
def decodeTableWord (nbits w : Nat) : Option Instr :=
  if w % 2 ^ nbits < 2 ^ 80 then (decode (tableWord nbits w)).toOption else none

end Sys2Proof
end

