-- ==== Sys2Proof/Config.lean ====
section
/-! DEFINITION. The parameters of the block, by name, each with the value `00_scope.md` rules R6 and R7
give it. They are hardwired: no operation writes one (`10_state.md` rule R31). Nothing of this
block is a draw (`93_implementation_defined.md`, end of section 1); the one free value is a wire's, at the port.
UNVERIFIED, unsafe (log entry 8): the spec calls the numerals unaudited (U1) and settles the strictness at 88 (C1). -/

namespace Sys2Proof.Config

/-- `NSLOTS`: slots of the frame buffer, the start code and 512 channels (R6). -/
abbrev nslots : Nat := 513

/-- `NCHAN`: channel slots, indices 1..512 (R6). -/
abbrev nchan : Nat := 512

/-- `SC_NULL`: the only accepted start code (R6). -/
abbrev scNull : Byte := 0x00#8

/-- `BREAK_US`: a gap *greater than* this many microseconds is a break (R6, C1). -/
abbrev breakUs : Nat := 88

/-- `LIVE_MS`: connected iff *less than* this many milliseconds have elapsed (R6). -/
abbrev liveMs : Nat := 2000

/-- `STALE_MS`: signal lost iff *more than* this many milliseconds have elapsed (R6). -/
abbrev staleMs : Nat := 5000

/-- `DEFAULT_VAL`: what READ returns where there is no data or `n` is out of range (R6). -/
abbrev defaultVal : Byte := 0x00#8

/-- `LAST_BYTE_US_RESET` (R7, R36, decision D5). UNVERIFIED, unsafe (log entry 7). -/
abbrev lastByteUsReset : Micros := 0#32

/-- `LAST_FRAME_MS_RESET` (R7, R36, decision D5); never observed (R27). UNVERIFIED (log entry 7). -/
abbrev lastFrameMsReset : Millis := 0#32

/-- What a slot holds that no operation has written since reset: the buffer is zero-filled (R30, R36). -/
abbrev slotReset : Byte := 0x00#8

/-- What the wires `rsp_word` carry in a cycle in which `rsp_valid` is 0: R85 says only that the word is valid while
`rsp_valid` is 1. A free value for each cycle. DESIGN CHOICE, safe (log entry 11). -/
opaque rspWordWhileInvalid : Nat → RspWord

end Sys2Proof.Config
end

