-- ==== Sys2Proof/Machine/Flags.lean ====
section
/-! DEFINITION. The three comparators of the block and the response word. The comparators are those of
`60_exceptions.md` rule R189: two 32-bit modular subtractions and unsigned comparisons against the
constants. The block has no condition codes (R28). -/

namespace Sys2Proof.Machine

/-- The gap of a BYTE: `t_us -_32 last_byte_us`, modulo 2^32 (R11, R101). -/
def gap (tUs lastByteUs : Micros) : Micros := tUs - lastByteUs

/-- The break comparator: the gap is greater than `BREAK_US`, strictly (R102, C1). -/
def showsBreak (g : Micros) : Bool := Config.breakUs < g.toNat

/-- The elapsed time of CONN and POLL: `t_ms -_32 last_frame_ms`, modulo 2^32 (R132, R134). -/
def elapsed (tMs lastFrameMs : Millis) : Millis := tMs - lastFrameMs

/-- The liveness comparator: less than `LIVE_MS`, strictly (R132). -/
def isLive (e : Millis) : Bool := e.toNat < Config.liveMs

/-- The stale comparator: more than `STALE_MS`, strictly (R134, R135). -/
def isStale (e : Millis) : Bool := Config.staleMs < e.toNat

/-- The response word: bit 9 `ill`, bit 8 `flag`, bits 7:0 `val` (R78). -/
def rspWord (ill flag : Bool) (val : Byte) : RspWord :=
  BitVec.ofBool ill ++ BitVec.ofBool flag ++ val

/-- The `ill` bit of a response (R78). -/
def rspIll (r : RspWord) : Bool := r.getLsbD 9

/-- The `flag` bit of a response (R78). -/
def rspFlag (r : RspWord) : Bool := r.getLsbD 8

/-- The `val` field of a response (R78). -/
def rspVal (r : RspWord) : Byte := r.extractLsb' 0 8

end Sys2Proof.Machine
end

