-- ==== Sys2Proof/Machine/Operands.lean ====
section
/-! DEFINITION. The operand forms: the range check of READ and the three ways an operation addresses the
frame buffer (`20_memory.md` rule R57). Every other operand is an immediate value. -/

namespace Sys2Proof.Machine

/-- READ's range check: `1 <= n <= 512` (R53, R130). -/
def channelInRange (n : ChanNum) : Bool := 1 ≤ n.toNat && n.toNat ≤ Config.nchan

/-- READ addresses the buffer directly: the slot is the operand `n` (R57). -/
def slotOfChannel (n : ChanNum) : Nat := n.toNat

/-- BYTE addresses the buffer by the position register: the slot is `chan_cnt` (R57). -/
def slotOfCount (c : Count) : Nat := c.toNat

/-- The post-increment of BYTE's addressing: `chan_cnt + 1`; never applied above 512, so it never wraps (R11, R23). -/
def nextCount (c : Count) : Count := c + 1#10

/-- `chan_cnt > 512`: the 513th byte was just stored (R109). -/
def countPastLast (c : Count) : Bool := Config.nchan < c.toNat

/-- INIT addresses every slot `0..512` (R57). -/
def allSlots : List Nat := List.range Config.nslots

end Sys2Proof.Machine
end

