-- ==== Sys2Proof/Machine/State.lean ====
section
/-! DEFINITION. The state of the block as plain data: the five registers and the frame buffer of
`10_state.md` rule R20, and three fields of the model's own that stand for the host's side of the
port (what has been presented, the response just given, whether the block has been reset). -/

namespace Sys2Proof.Machine

/-- The synchronizer state, one bit (R20, R21). -/
inductive SyncState where
  /-- 0, the initial state: no byte is accepted into the frame buffer. -/
  | awaitingBreak
  /-- 1: a break has been seen and the bytes that follow are taken as a frame. -/
  | receiving
deriving DecidableEq, Repr

/-- The numeric coding of `sync_state` (R20, decision D21). -/
def SyncState.code : SyncState → BitVec 1
  | .awaitingBreak => 0#1
  | .receiving => 1#1

/-- What the host does next at the port (R85, R161, R191). -/
inductive PortInput where
  /-- An operation word presented at the operation port (R71, R85). -/
  | present (w : OpWord)
  /-- The reset input `rst`, asserted for one clock cycle (R161). -/
  | rst
deriving DecidableEq, Repr

/-- The frame buffer as a list of (slot index, byte), addresses rising, no entry that equals the reset
value `0x00`; an unlisted slot reads `0x00` (R30, R36: the buffer is zero-filled). DEDUCED, safe (log entry 10). -/
abbrev Memory := List Host.Cell

/-- A stop with a fault. The spec has none ("Fault: never", R173). -/
inductive Fault where
  /-- Raised by the buffer primitives on a slot index of 513 or above: "no such location exists" (R51).
  No rule produces such an index (R56), so no step ends here. DESIGN CHOICE, safe: the model stops (log entry 5). -/
  | noSuchSlot (index : Nat)
deriving DecidableEq, Repr

/-- A refusal: the spec gives no meaning (R173). -/
inductive Refusal where
  /-- Raised by no arm: every operation has its meaning. Safe. -/
  | notModelled (mnemonic : String)
  /-- Raised by every word but INIT's before the first reset: "the spec gives no operation a meaning" there (R202,
  D14). Safe: the model stops (log entry 3). -/
  | beforeFirstReset
  /-- Raised by every word but INIT's at a pair `(AwaitingBreak, k != 0)` or `(Receiving, k > 512)`: those pairs "are
  given no meaning by any rule" and are unreachable (R23, R173, U6, D23). Safe: the model stops (log entry 4). -/
  | positionWithoutMeaning (sync : SyncState) (cnt : Count)
deriving DecidableEq, Repr

/-- The state between steps. -/
structure State where
  /-- `sync_state` (R21). -/
  syncState : SyncState
  /-- `chan_cnt`, how many bytes of the current frame have been accepted (R22, R23). -/
  chanCnt : Count
  /-- `last_byte_us`, the `t_us` of the most recent BYTE (R25). -/
  lastByteUs : Micros
  /-- `last_frame_ms`, the `t_ms` of the BYTE that last completed a frame (R26). -/
  lastFrameMs : Millis
  /-- `frame_received`, the block's only status flag (R28). -/
  frameReceived : Bool
  /-- `buf[0..512]`, the frame buffer (R30, R50). -/
  buf : Memory
  /-- The model's own: the block has been reset (by `rst` or INIT) since power came on (R202). DESIGN CHOICE, safe (log entry 3). -/
  resetSeen : Bool
  /-- The model's own: what the host presents at the port, in the order presented (R59, R85). DESIGN CHOICE, unsafe
  (log entry 1). -/
  inputs : List PortInput
  /-- The model's own: the output of the last step, `rsp_valid` with `rsp_word`; `none` where the last step gave
  no response (R29: not latched; R85). DESIGN CHOICE, safe (log entry 6). -/
  rsp : Option RspWord
deriving DecidableEq, Repr

/-- The state after reset (R36, R200), with nothing presented at the port and no response. -/
def State.reset : State where
  syncState := .awaitingBreak
  chanCnt := 0#10
  lastByteUs := Config.lastByteUsReset
  lastFrameMs := Config.lastFrameMsReset
  frameReceived := false
  buf := []
  resetSeen := true
  inputs := []
  rsp := none

end Sys2Proof.Machine
end

