-- ==== Sys2Proof/Machine/Ops.lean ====
section
/-! DEFINITION. The named operations over the frame buffer and the registers that the six meanings share.
The block has no trap: "what the block does on each anomaly is the whole entry" (`60_exceptions.md` rule
R185), so the shared operations `restartFrame`, `abandonFrame` and `declareLoss` stand where a processor
would take an exception, and there is no return from one (R186). -/

namespace Sys2Proof.Machine

/-! ### The frame buffer -/

/-- The byte at a slot; an unlisted slot reads as after reset (R36). -/
def memGet : Memory → Nat → Byte
  | [], _ => Config.slotReset
  | (b, v) :: m, a => if b = a then v else memGet m a

/-- The list without any entry for slot `a`. -/
def memErase : Memory → Nat → Memory
  | [], _ => []
  | (b, v) :: m, a => if b = a then memErase m a else (b, v) :: memErase m a

/-- The list with an entry for slot `a`, in front of the first higher slot. -/
def memInsert : Memory → Nat → Byte → Memory
  | [], a, v => [(a, v)]
  | (b, w) :: m, a, v => if a < b then (a, v) :: (b, w) :: m else (b, w) :: memInsert m a v

/-- Replaces slot `a` and no other slot (R56); writing the reset value takes the entry out. -/
def memSet (m : Memory) (a : Nat) (v : Byte) : Memory :=
  if v = Config.slotReset then memErase m a else memInsert (memErase m a) a v

/-- Every entry is at `lo` or above, at a slot that exists, in rising order, and not the reset value. -/
def memWfFrom : Nat → Memory → Bool
  | _, [] => true
  | lo, (a, v) :: m => lo ≤ a && a < Config.nslots && v != Config.slotReset && memWfFrom (a + 1) m

/-- The canonical form of the frame buffer. -/
def Memory.wf (m : Memory) : Bool := memWfFrom 0 m

/-- `MemRead(i, 1)` (R12, R56): never fails for `i <= 512`; a higher slot does not exist (R51). -/
def memRead (s : State) (i : Nat) : Except Fault Byte :=
  if i < Config.nslots then .ok (memGet s.buf i) else .error (.noSuchSlot i)

/-! ### Register updates -/

/-- `last_byte_us <- t_us` (R103). -/
def State.setLastByteUs (s : State) (t : Micros) : State := { s with lastByteUs := t }

/-- `sync_state <- y; chan_cnt <- c` (R21, R22). -/
def State.setPosition (s : State) (y : SyncState) (c : Count) : State :=
  { s with syncState := y, chanCnt := c }

/-- `buf[i] <- v`, the register-level effect of `MemWrite` (R12). -/
def State.setSlot (s : State) (i : Nat) (v : Byte) : State := { s with buf := memSet s.buf i v }

/-- `frame_received <- 1; last_frame_ms <- t_ms` (R109). -/
def State.setCompleted (s : State) (tMs : Millis) : State :=
  { s with frameReceived := true, lastFrameMs := tMs }

/-- `frame_received <- 0` (R134). -/
def State.clearReceived (s : State) : State := { s with frameReceived := false }

/-- The response of the step: `ill = 0`, and the two result fields (R78, R79). -/
def State.respond (s : State) (flag : Bool) (val : Byte) : State :=
  { s with rsp := some (rspWord false flag val) }

/-- The response of an illegal word: `ill = 1, flag = 0, val = 0`, that is `0x200` (R80). -/
def State.respondIllegal (s : State) : State := { s with rsp := some (rspWord true false 0#8) }

/-- No response (R85: `rsp_valid` is 0). -/
def State.noResponse (s : State) : State := { s with rsp := none }

/-- What remains to be presented at the port. -/
def State.setInputs (s : State) (q : List PortInput) : State := { s with inputs := q }

/-- `MemWrite(i, 1, v)` (R12, R56): replaces slot `i` and no other; a slot above 512 does not exist (R51). -/
def memWrite (s : State) (i : Nat) (v : Byte) : Except Fault State :=
  if i < Config.nslots then .ok (s.setSlot i v) else .error (.noSuchSlot i)

/-! ### What stands in for trap entry (R171, R185) -/

/-- A break: `sync_state <- Receiving; chan_cnt <- 0`, from either state. The anomaly *truncated frame*
where a frame was in progress; slots already written keep their bytes (R104, R171, R218). -/
def restartFrame (s : State) : State := s.setPosition .receiving 0#10

/-- The return to `AwaitingBreak`, which writes `chan_cnt <- 0`: the anomaly *invalid start code* (R107, R171) and
the last part of a completion (R109); C3. -/
def abandonFrame (s : State) : State := s.setPosition .awaitingBreak 0#10

/-- The anomaly *signal loss*: `frame_received <- 0`; the buffer and `last_frame_ms` are untouched (R134, R171). -/
def declareLoss (s : State) : State := s.clearReceived

/-- A completed frame (R109): the flag, the completion time, and the return to `(AwaitingBreak, 0)`. -/
def completeFrame (s : State) (tMs : Millis) : State := abandonFrame (s.setCompleted tMs)

/-- The one initial state of the block, whatever the state before (R36, R160, R161). The buffer is zeroed in every
slot; what the host goes on presenting is its own. DEDUCED, safe: INIT's loop as the empty list (log entry 10). -/
def resetBlock (s : State) : State :=
  { State.reset with inputs := s.inputs, rsp := s.rsp }

/-! ### Where the spec gives no meaning (R173) -/

/-- The pair `(sync_state, chan_cnt)` has a meaning: it is none of `(AwaitingBreak, k != 0)` and `(Receiving, k > 512)`,
which "are given no meaning by any rule" (R23, U6); R100 still gives `(Receiving, 0)` one. DEDUCED, safe (log entry 4). -/
def State.positionHasMeaning (s : State) : Bool :=
  match s.syncState with
  | .awaitingBreak => s.chanCnt == 0#10
  | .receiving => s.chanCnt.toNat ≤ Config.nchan

/-- The two refusals that stand before every word but INIT's (R173): nothing has a meaning before the first reset (R202,
D14), nor at a pair that no rule gives a meaning (R23, D23). DEDUCED, safe (log entries 3, 4): INIT is let through. -/
def whenMeaning (s : State) (k : Host.Outcome State Fault Refusal) : Host.Outcome State Fault Refusal :=
  if s.resetSeen then
    if s.positionHasMeaning then k else .refused (.positionWithoutMeaning s.syncState s.chanCnt)
  else .refused .beforeFirstReset

/-- An illegal word: the state is unchanged and the response is `0x200` (R80), where the state has a meaning (R173).
DESIGN CHOICE, unsafe: a next state, not a refusal outcome (log entry 2). -/
def illegalWord (s : State) : Host.Outcome State Fault Refusal :=
  whenMeaning s (.next s.respondIllegal)

/-- Ends a BYTE: the response carries `done`, `val` is 0 (R79). -/
def answerByte : Except Fault (State × Bool) → Host.Outcome State Fault Refusal
  | .ok (s, done) => .next (s.respond done 0#8)
  | .error f => .fault f

/-- Ends a READ: the response carries the byte, `flag` is 0 (R79). -/
def answerRead (s : State) : Except Fault Byte → Host.Outcome State Fault Refusal
  | .ok v => .next (s.respond false v)
  | .error f => .fault f

end Sys2Proof.Machine
end

