-- ==== Sys2Proof/Machine/Lifecycle.lean ====
section
/-! DEFINITION. The INIT operation and the reset input (`42_lifecycle.md`). -/

namespace Sys2Proof.Machine

/-- `INIT` (R160): the state of R36 whatever the state before, also before the first reset (R190 H-8, R200). -/
def execInit (s : State) : Host.Outcome State Fault Refusal :=
  .next ((resetBlock s).respond false 0#8)

/-- The reset input `rst` (R161): exactly INIT's effect on the state, and no response. -/
def hardwareReset (s : State) : State := (resetBlock s).noResponse

end Sys2Proof.Machine
end

