-- ==== Sys2Proof/Machine/Store.lean ====
section
/-! DEFINITION. The READ, CONN, POLL and FLAG operations: the Frame Store & Liveness Tracker
(`41_store_liveness.md`). -/

namespace Sys2Proof.Machine

/-- `READ n` (R130): the stored byte where `frame_received` is 1 and `n` is in 1..512, else `DEFAULT_VAL`. -/
def execRead (n : ChanNum) (s : State) : Host.Outcome State Fault Refusal :=
  whenMeaning s
    (if s.frameReceived && channelInRange n then answerRead s (memRead s (slotOfChannel n))
     else .next (s.respond false Config.defaultVal))

/-- `CONN t_ms` (R132): connected iff `frame_received` is 1 and less than `LIVE_MS` has elapsed. -/
def execConn (tMs : Millis) (s : State) : Host.Outcome State Fault Refusal :=
  whenMeaning s (.next (s.respond (s.frameReceived && isLive (elapsed tMs s.lastFrameMs)) 0#8))

/-- `POLL t_ms` (R134): past the stale window with `frame_received` 1, clears it and answers `lost`, once. -/
def execPoll (tMs : Millis) (s : State) : Host.Outcome State Fault Refusal :=
  whenMeaning s
    (if s.frameReceived && isStale (elapsed tMs s.lastFrameMs) then .next ((declareLoss s).respond true 0#8)
     else .next (s.respond false 0#8))

/-- `FLAG` (R136): answers `frame_received`, without side effect. -/
def execFlag (s : State) : Host.Outcome State Fault Refusal :=
  whenMeaning s (.next (s.respond s.frameReceived 0#8))

end Sys2Proof.Machine
end

