-- ==== Sys2Proof/Machine/Sync.lean ====
section
/-! DEFINITION. The BYTE operation: the Byte Intake Monitor and the Frame Synchronizer. The order within a step is
that of `60_exceptions.md` rule R183: gap, timing state, break test, classification, completion test. -/

namespace Sys2Proof.Machine

/-- The break test (R102, R104): a break restarts the frame from either state, before the byte is classified. -/
def breakTest (g : Micros) (s : State) : State := if showsBreak g then restartFrame s else s

/-- The candidate start code (R106, R107): `0x00` is stored in slot 0, any other value is rejected. -/
def startCode (data : Byte) (s : State) : Except Fault (State × Bool) :=
  if data = Config.scNull then
    match memWrite s 0 data with
    | .ok t => .ok (t.setPosition .receiving 1#10, false)
    | .error f => .error f
  else .ok (abandonFrame s, false)

/-- After the store of a channel byte: `chan_cnt <- chan_cnt + 1`, and completion where it now exceeds 512 (R108, R109). -/
def advance (tMs : Millis) (s : State) : State × Bool :=
  if countPastLast (nextCount s.chanCnt) then
    (completeFrame s tMs, true)
  else (s.setPosition .receiving (nextCount s.chanCnt), false)

/-- A channel byte (R108): stored at slot `chan_cnt`, any value accepted. -/
def channelByte (tMs : Millis) (data : Byte) (s : State) : Except Fault (State × Bool) :=
  match memWrite s (slotOfCount s.chanCnt) data with
  | .ok t => .ok (advance tMs t)
  | .error f => .error f

/-- Classification of the byte in the state after the break test (R111): discarded in `AwaitingBreak` (R105), the
start-code candidate at `chan_cnt = 0`, a channel byte otherwise. -/
def classify (tMs : Millis) (data : Byte) (s : State) : Except Fault (State × Bool) :=
  match s.syncState with
  | .awaitingBreak => .ok (s, false)
  | .receiving => if s.chanCnt = 0#10 then startCode data s else channelByte tMs data s

/-- The byte's way through the Intake Monitor and the Synchronizer, in the order of R183. -/
def byteStep (tUs : Micros) (tMs : Millis) (data : Byte) (s : State) : Except Fault (State × Bool) :=
  classify tMs data (breakTest (gap tUs s.lastByteUs) (s.setLastByteUs tUs))

/-- `BYTE t_us, t_ms, data` (R100). -/
def execByte (tUs : Micros) (tMs : Millis) (data : Byte) (s : State) : Host.Outcome State Fault Refusal :=
  whenMeaning s (answerByte (byteStep tUs tMs data s))

end Sys2Proof.Machine
end

