-- ==== Sys2Proof/Machine/Dispatch.lean ====
section
/-! DEFINITION. One operation: the meaning of each of the six (`30_encoding.md` rule R70). -/

namespace Sys2Proof.Machine

def exec (i : Instr) (s : State) : Host.Outcome State Fault Refusal :=
  match i with
  | .byte tUs tMs data => Sys2Proof.Machine.execByte tUs tMs data s
  | .read n => Sys2Proof.Machine.execRead n s
  | .conn tMs => Sys2Proof.Machine.execConn tMs s
  | .poll tMs => Sys2Proof.Machine.execPoll tMs s
  | .flag => Sys2Proof.Machine.execFlag s
  | .init => Sys2Proof.Machine.execInit s

end Sys2Proof.Machine
end

