-- ==== Sys2Proof/Machine/Intake.lean ====
section
/-! DEFINITION. From a presented operation word to the outcome of its step: decoding, then the operation, or the answer
to an illegal word (`00_scope.md` rule R13, `30_encoding.md` rules R80 and R81). -/

namespace Sys2Proof.Machine

/-- A presented operation word (R13, R81). -/
def performWord (w : OpWord) (s : State) : Host.Outcome State Fault Refusal :=
  match decode w with
  | .ok i => exec i s
  | .error _ => illegalWord s

end Sys2Proof.Machine
end

