-- ==== Sys2Proof/Machine/Step.lean ====
section
/-! DEFINITION. One step: the block takes the next thing the host does at the port. A presented word is decoded and
performed in one atomic step that produces one response (`00_scope.md` rule R13, `20_memory.md` rule R58); an illegal
word is refused in the spec's sense, state unchanged and response `0x200` (R80); `rst` resets (R161); where nothing is
presented nothing changes. DESIGN CHOICE, unsafe: the port's contents stand in the state (log entry 1); untimed (log
entry 14). -/

namespace Sys2Proof.Machine

/-- One step of the machine (R13, R59, R85). -/
def step (s : State) : Host.Outcome State Fault Refusal :=
  match s.inputs with
  | [] => .next s.noResponse
  | .rst :: q => .next (hardwareReset (s.setInputs q))
  | .present w :: q => performWord w (s.setInputs q)

/-- `s` with the operation word whose bits are `w` presented next at the port, before anything else the host presents. -/
def State.withFetchWord (s : State) (nbits w : Nat) : State :=
  s.setInputs (.present (tableWord nbits w) :: s.inputs)

end Sys2Proof.Machine
end

