-- ==== Sys2Proof/Machine/Port.lean ====
section
/-! DEFINITION. The signal level of `30_encoding.md` rule R85: one clock cycle of the operation port around the
operation-level step. `step` (one operation a step, R13) is the machine; this layer gives "presented in order" its
hardware meaning. The number of cycles from presentation to response is not specified (R85, R224): in each
cycle the input `answer` says whether the operation in flight is answered in it, and claims hold for every choice.
DESIGN CHOICE, unsafe (log entry 11). -/

namespace Sys2Proof.Machine

/-- The block with its port: the operation in flight, at most one (R85). -/
structure Port where
  /-- The block; its field `rsp` is `rsp_valid` with `rsp_word` as of the last cycle. -/
  block : State
  /-- The operation presented and not yet answered. -/
  inFlight : Option OpWord
  /-- The model's own: cycles so far, so that what `rsp_word` carries unspecified is free in each (log entry 11). -/
  cycles : Nat
deriving DecidableEq, Repr

/-- The inputs in one cycle of `clk` (R85), and the latency's free choice. -/
structure PortSignals where
  /-- `rst`, synchronous, active high. -/
  rst : Bool
  /-- `op_valid`. -/
  opValid : Bool
  /-- `op_word[79:0]`. -/
  opWord : OpWord
  /-- Not a signal: the operation in flight is answered in this cycle. -/
  answer : Bool
deriving DecidableEq, Repr

/-- `op_ready`: 0 from the cycle after an operation is presented until its response has been produced (R85). -/
def Port.opReady (p : Port) : Bool := p.inFlight.isNone

/-- `rsp_valid` (R85). -/
def Port.rspValid (p : Port) : Bool := p.block.rsp.isSome

/-- `rsp_word`: the response while `rsp_valid` is 1 (R85). What it carries while `rsp_valid` is 0 the spec leaves open:
DESIGN CHOICE, safe (log entry 11): a free value, another in each cycle. -/
def Port.rspWord (p : Port) : RspWord := p.block.rsp.getD (Config.rspWordWhileInvalid p.cycles)

/-- An operation is presented in a cycle in which `op_valid` and `op_ready` are both 1 (R85) and `rst` is 0. -/
def Port.presents (p : Port) (c : PortSignals) : Bool := !c.rst && c.opValid && p.opReady

/-- The operation in flight is answered: it is performed in the block and its response is produced. -/
def Port.performInFlight (p : Port) (w : OpWord) : Host.Outcome Port Fault Refusal :=
  match performWord w p.block with
  | .next t => .next { block := t, inFlight := none, cycles := p.cycles + 1 }
  | .fault f => .fault f
  | .refused r => .refused r

/-- One cycle (R85). `rst` has INIT's effect, produces no response and abandons the operation in flight (R161). -/
def Port.cycle (p : Port) (c : PortSignals) : Host.Outcome Port Fault Refusal :=
  if c.rst then .next { block := hardwareReset p.block, inFlight := none, cycles := p.cycles + 1 }
  else match p.inFlight with
    | none =>
      .next { block := p.block.noResponse, inFlight := if c.opValid then some c.opWord else none, cycles := p.cycles + 1 }
    | some w => if c.answer then p.performInFlight w else .next { p with block := p.block.noResponse, cycles := p.cycles + 1 }

/-- What the host sees of a run of cycles: the words presented and the responses, each in order. -/
structure PortTrace where
  presented : List OpWord
  responses : List RspWord
deriving DecidableEq, Repr

/-- A run over the cycles' inputs, stopping where the block gives no meaning. -/
def Port.run : List PortSignals → Port → Option (Port × PortTrace)
  | [], p => some (p, ⟨[], []⟩)
  | c :: cs, p =>
    match p.cycle c with
    | .next q =>
      match Port.run cs q with
      | some (u, tr) =>
        some (u, ⟨if p.presents c then c.opWord :: tr.presented else tr.presented,
                  q.block.rsp.toList ++ tr.responses⟩)
      | none => none
    | _ => none

end Sys2Proof.Machine
end

