-- ==== Sys2Proof/Machine/Trace.lean ====
section
/-! DEFINITION. The trace notation of `30_encoding.md` rules R83 and R84 (this hardware's assembly), the two
pseudo-operations, and the rendering of words in hexadecimal (R86). Not part of the block: it says which operations a
written trace stands for. DESIGN CHOICE, safe: what R83 leaves open of the text (log entry 13). -/

namespace Sys2Proof.Machine

/-- A line of a trace: operands are unsigned numerals (R83), two pseudo-operations write byte streams by gaps (R84). -/
inductive TraceOp where
  | byte (tUs tMs data : Nat)
  | read (n : Nat)
  | conn (tMs : Nat)
  | poll (tMs : Nat)
  | flag
  | init
  | gbyte (gap tMs data : Nat)
  | frame (gap0 gap tMs sc : Nat) (vs : List Nat)
deriving DecidableEq, Repr

/-- The numeral is within a field of `w` bits (R83). -/
def fits (w n : Nat) : Bool := n < 2 ^ w

/-- `GBYTE gap, t_ms, data` after a BYTE at `prev`: `BYTE (prev + gap) mod 2^32, t_ms, data` (R84). -/
def gbyteInstr (prev : Micros) (gap tMs data : Nat) : Instr :=
  .byte (prev + BitVec.ofNat 32 gap) (BitVec.ofNat 32 tMs) (BitVec.ofNat 8 data)

/-- The channel bytes of a FRAME, each `gap` after the byte before it (R84). -/
def gbytes (prev : Micros) (gap tMs : Nat) : List Nat → List Instr
  | [] => []
  | v :: vs => gbyteInstr prev gap tMs v :: gbytes (prev + BitVec.ofNat 32 gap) gap tMs vs

/-- The operations a line stands for, after a BYTE at `prev` (R83, R84). -/
def TraceOp.expand (prev : Micros) : TraceOp → List Instr
  | .byte tUs tMs data => [.byte (BitVec.ofNat 32 tUs) (BitVec.ofNat 32 tMs) (BitVec.ofNat 8 data)]
  | .read n => [.read (BitVec.ofNat 16 n)]
  | .conn tMs => [.conn (BitVec.ofNat 32 tMs)]
  | .poll tMs => [.poll (BitVec.ofNat 32 tMs)]
  | .flag => [.flag]
  | .init => [.init]
  | .gbyte gap tMs data => [gbyteInstr prev gap tMs data]
  | .frame gap0 gap tMs sc vs =>
    gbyteInstr prev gap0 tMs sc :: gbytes (prev + BitVec.ofNat 32 gap0) gap tMs vs

/-- `prev` after an operation: the `t_us` of a BYTE, the reset value after INIT (R84). -/
def prevAfterInstr (prev : Micros) : Instr → Micros
  | .byte tUs _ _ => tUs
  | .init => Config.lastByteUsReset
  | .read _ => prev
  | .conn _ => prev
  | .poll _ => prev
  | .flag => prev

/-- `prev` after a run of operations. -/
def prevAfter (prev : Micros) (is : List Instr) : Micros := is.foldl prevAfterInstr prev

/-- The operations a trace stands for (R83, R84); at its start `prev` is `LAST_BYTE_US_RESET`. -/
def expandTrace (prev : Micros) : List TraceOp → List Instr
  | [] => []
  | t :: ts => t.expand prev ++ expandTrace (prevAfter prev (t.expand prev)) ts

/-! ### Reading a line (R83) -/

/-- A line without its comment: a `;` starts a comment to the end of the line. -/
def cutComment : List Char → List Char
  | [] => []
  | c :: cs => if c = ';' then [] else c :: cutComment cs

/-- The text without leading spaces. -/
def skipSpaces : List Char → List Char
  | [] => []
  | c :: cs => if c = ' ' then skipSpaces cs else c :: cs

/-- The text without leading or trailing spaces. -/
def trimSpaces (cs : List Char) : List Char := (skipSpaces (skipSpaces cs).reverse).reverse

/-- The text cut at every `sep`. -/
def splitAt' (sep : Char) : List Char → List (List Char)
  | [] => [[]]
  | c :: cs =>
    if c = sep then [] :: splitAt' sep cs
    else match splitAt' sep cs with
      | [] => [[c]]
      | p :: ps => (c :: p) :: ps

/-- The value of a digit in base 10 or 16. -/
def digitValue (base : Nat) (c : Char) : Option Nat :=
  let d :=
    if 48 ≤ c.toNat && c.toNat ≤ 57 then c.toNat - 48
    else if 65 ≤ c.toNat && c.toNat ≤ 70 then c.toNat - 55
    else if 97 ≤ c.toNat && c.toNat ≤ 102 then c.toNat - 87
    else base
  if d < base then some d else none

/-- The value of the digits, the first the most significant, continued from `acc`. -/
def digitsValue (base acc : Nat) : List Char → Option Nat
  | [] => some acc
  | c :: cs => match digitValue base c with
    | some d => digitsValue base (acc * base + d) cs
    | none => none

/-- A numeral, decimal or `0x` hexadecimal (R83). -/
def readNumeral : List Char → Option Nat
  | [] => none
  | '0' :: 'x' :: c :: cs => digitsValue 16 0 (c :: cs)
  | c :: cs => digitsValue 10 0 (c :: cs)

/-- Numerals separated by commas; the empty text has none. -/
def readNumerals (cs : List Char) : Option (List Nat) :=
  if trimSpaces cs = [] then some []
  else (splitAt' ',' cs).mapM fun p => readNumeral (trimSpaces p)

/-- The mnemonic and the rest of a line. -/
def splitMnemonic : List Char → List Char × List Char
  | [] => ([], [])
  | c :: cs => if c = ' ' then ([], cs) else ((c :: (splitMnemonic cs).1), (splitMnemonic cs).2)

/-- The operands of `FRAME gap0, gap, t_ms, sc, [v1, ..., vk]` (R84). -/
def readFrame (cs : List Char) : Option TraceOp :=
  match splitAt' '[' cs with
  | [front, rest] =>
    match splitAt' ']' rest, (trimSpaces front).reverse with
    | [inside, tail], ',' :: rfront =>
      if trimSpaces tail = [] then
        match readNumerals rfront.reverse, readNumerals inside with
        | some [gap0, gap, tMs, sc], some vs => some (.frame gap0 gap tMs sc vs)
        | _, _ => none
      else none
    | _, _ => none
  | _ => none

/-- An operation from its mnemonic and operands, the operands in the order shown in R83 and R84. -/
def readOperation (mnemonic rest : List Char) : Option TraceOp :=
  if mnemonic = ['F', 'R', 'A', 'M', 'E'] then readFrame rest
  else match readNumerals rest with
    | some [a, b, c] =>
      if mnemonic = ['B', 'Y', 'T', 'E'] then some (.byte a b c)
      else if mnemonic = ['G', 'B', 'Y', 'T', 'E'] then some (.gbyte a b c)
      else none
    | some [a] =>
      if mnemonic = ['R', 'E', 'A', 'D'] then some (.read a)
      else if mnemonic = ['C', 'O', 'N', 'N'] then some (.conn a)
      else if mnemonic = ['P', 'O', 'L', 'L'] then some (.poll a)
      else none
    | some [] =>
      if mnemonic = ['F', 'L', 'A', 'G'] then some .flag
      else if mnemonic = ['I', 'N', 'I', 'T'] then some .init
      else none
    | _ => none

/-- What a line of a trace says: nothing (blank, or a comment only), an operation, or no line of the notation. -/
inductive TraceLine where
  | blank
  | operation (t : TraceOp)
  | unreadable
deriving DecidableEq, Repr

/-- Reads one line (R83): one operation per line, no labels, no directives. Ranges are checked in `WellFormed.lean`. -/
def readLine (cs : List Char) : TraceLine :=
  let body := trimSpaces (cutComment cs)
  if body = [] then .blank
  else match readOperation (splitMnemonic body).1 (splitMnemonic body).2 with
    | some t => .operation t
    | none => .unreadable

/-! ### Rendering (R86) -/

/-- A hexadecimal digit, as R86 writes it. -/
def hexDigit (d : Nat) : Char := Char.ofNat (if d < 10 then 48 + d else 55 + d)

/-- `k` hexadecimal digits of `n`, most significant first. -/
def hexDigits (k n : Nat) : List Char :=
  ((List.range k).map fun i => hexDigit (n / 16 ^ i % 16)).reverse

/-- An operation word as 20 hexadecimal digits (R86). -/
def renderOpWord (w : OpWord) : List Char := hexDigits 20 w.toNat

/-- A response word as 3 hexadecimal digits (R86). -/
def renderRspWord (r : RspWord) : List Char := hexDigits 3 r.toNat

end Sys2Proof.Machine
end

