-- ==== Sys2Proof/WellFormed.lean ====
section
/-! DEFINITION. Well-formedness. A term of `Instr` holds its operands at the widths of their fields (R72 to R76), so
no term of `Instr` is ill-formed and there is nothing to check on one. The check stands where numerals enter, at the
lines of a trace: "each within its field's range" (`30_encoding.md` rule R83; for GBYTE, `0 <= gap < 2^32`, R84).
DESIGN CHOICE, safe (log entry 13). -/

namespace Sys2Proof

open Sys2Proof.Machine

/-- Every operand of the line is within its field's range (R83, R84). -/
def wellFormed : TraceOp → Bool
  | .byte tUs tMs data => fits 32 tUs && fits 32 tMs && fits 8 data
  | .read n => fits 16 n
  | .conn tMs => fits 32 tMs
  | .poll tMs => fits 32 tMs
  | .flag => true
  | .init => true
  | .gbyte gap tMs data => fits 32 gap && fits 32 tMs && fits 8 data
  | .frame gap0 gap tMs sc vs => fits 32 gap0 && fits 32 gap && fits 32 tMs && fits 8 sc && vs.all (fits 8)

/-- The operations of a well-formed trace, from reset; a trace with an operand out of range has none. -/
def instrsOfTrace (ts : List TraceOp) : Option (List Instr) :=
  if ts.all wellFormed then some (expandTrace Config.lastByteUsReset ts) else none

end Sys2Proof
end

