-- ==== Sys2Proof/Safety.lean ====
section
/-! DEFINITION. What claims about the block are stated in: the invariant of the states between steps, runs and their
responses, received byte sequences and the shape of a frame, the anomalies and the two events, which states a consumer
cannot tell apart, and the host's duties as named premises (`60_exceptions.md` rule R190; log entry 12). No rule of the step is here. -/

namespace Sys2Proof.Safety

open Sys2Proof.Machine

/-! ### States between steps -/

/-- The pairs reachable between steps: `(AwaitingBreak, 0)` and `(Receiving, k)` with `1 <= k <= 512` (R23). -/
def positionReachable (s : State) : Bool :=
  match s.syncState with
  | .awaitingBreak => s.chanCnt == 0#10
  | .receiving => 1 ≤ s.chanCnt.toNat && s.chanCnt.toNat ≤ Config.nchan

/-- The invariant: the block has been reset, its position is reachable (R23), the buffer has its canonical form, and
slot 0 holds `0x00` (R30). -/
abbrev Inv (s : State) : Prop :=
  s.resetSeen = true ∧ positionReachable s = true ∧ s.buf.wf = true ∧ memGet s.buf 0 = 0x00#8

/-- The next operation meets no fault. -/
def noFault : Host.Outcome State Fault Refusal → Bool
  | .fault _ => false
  | .next _ => true
  | .refused _ => true

/-! ### Runs -/

/-- A run of operations with their responses, in order: the fold of one operation over the sequence (R59). `none` where
the block gives an operation no meaning. -/
def runOps : List Instr → State → Option (State × List RspWord)
  | [], s => some (s, [])
  | i :: is, s =>
    match exec i s with
    | .next t => (runOps is t).map fun r => (r.1, t.rsp.getD 0#10 :: r.2)
    | _ => none

/-- The same over operation words, legal or not. -/
def runWords : List OpWord → State → Option (State × List RspWord)
  | [], s => some (s, [])
  | w :: ws, s =>
    match performWord w s with
    | .next t => (runWords ws t).map fun r => (r.1, t.rsp.getD 0#10 :: r.2)
    | _ => none

/-- `k` steps of the machine with the responses they gave, in order. -/
def runSteps : Nat → State → Option (State × List RspWord)
  | 0, s => some (s, [])
  | k + 1, s =>
    match step s with
    | .next t => (runSteps k t).map fun r => (r.1, t.rsp.toList ++ r.2)
    | _ => none

/-- The operation is a BYTE. -/
def isByte : Instr → Bool
  | .byte _ _ _ => true
  | .read _ => false
  | .conn _ => false
  | .poll _ => false
  | .flag => false
  | .init => false

/-- The operation writes the synchronizer's state: BYTE or INIT (R32). -/
def writesSynchronizer : Instr → Bool
  | .byte _ _ _ => true
  | .read _ => false
  | .conn _ => false
  | .poll _ => false
  | .flag => false
  | .init => true

/-! ### Received byte sequences -/

/-- A received byte: its arrival time, the millisecond clock, its value. -/
structure Arrival where
  tUs : Micros
  tMs : Millis
  data : Byte
deriving DecidableEq, Repr

/-- The BYTE operation of a received byte. -/
def Arrival.op (a : Arrival) : Instr := .byte a.tUs a.tMs a.data

/-- No byte of the sequence shows a break, where the byte before it arrived at `last` (R102). -/
def quiet : Micros → List Arrival → Bool
  | _, [] => true
  | last, a :: as => !showsBreak (gap a.tUs last) && quiet a.tUs as

/-- The arrival time of the last byte of the sequence, `last` where it is empty. -/
def lastStamp : Micros → List Arrival → Micros
  | last, [] => last
  | _, a :: as => lastStamp a.tUs as

/-- A break with a null start code, then `k` bytes without a break (R104, R106, R108). -/
def frameStart (k : Nat) (last : Micros) : List Arrival → Bool
  | [] => false
  | a :: as =>
    showsBreak (gap a.tUs last) && a.data == Config.scNull && as.length == k && quiet a.tUs as

/-- The shape of a frame: 513 bytes, the first with a break and of value `0x00`, then 512 without a break (R116). -/
def isFrame (last : Micros) (as : List Arrival) : Bool := frameStart Config.nchan last as

/-- The slot a BYTE stores to, if it stores (R57, R106, R108), from the state and operands at the start of its step. -/
def byteSlot (tUs : Micros) (data : Byte) (s : State) : Option Nat :=
  if showsBreak (gap tUs s.lastByteUs) then (if data = Config.scNull then some 0 else none)
  else match s.syncState with
    | .awaitingBreak => none
    | .receiving =>
      if s.chanCnt = 0#10 then (if data = Config.scNull then some 0 else none)
      else some (slotOfCount s.chanCnt)

/-- The BYTE completes a frame: no break, in `Receiving` with 512 bytes accepted (R109, R112). -/
def byteCompletes (tUs : Micros) (s : State) : Bool :=
  !showsBreak (gap tUs s.lastByteUs) && s.syncState == .receiving && s.chanCnt == 512#10

/-! ### Anomalies and events -/

/-- The conditions of the anomaly table (R171). -/
inductive Anomaly where
  | invalidStartCode
  | truncatedFrame
  | signalLoss
  | outOfRangeRead
  /-- A byte with no break in `AwaitingBreak`: the table's fifth row where it follows a completion (R110), R105 in general. -/
  | discardedByte
deriving DecidableEq, Repr

/-- The anomalies an operation meets at a state; one BYTE can be two of them (R171, R183). -/
def anomaliesOf (i : Instr) (s : State) : List Anomaly :=
  match i with
  | .byte tUs _ data =>
    if showsBreak (gap tUs s.lastByteUs) then
      (if s.syncState = .receiving ∧ 1 ≤ s.chanCnt.toNat then [.truncatedFrame] else [])
        ++ (if data = Config.scNull then [] else [.invalidStartCode])
    else if s.syncState = .awaitingBreak then [.discardedByte] else []
  | .read n => if channelInRange n then [] else [.outOfRangeRead]
  | .poll tMs => if s.frameReceived && isStale (elapsed tMs s.lastFrameMs) then [.signalLoss] else []
  | .conn _ => []
  | .flag => []
  | .init => []

/-- The two outward events (R180). -/
inductive Event where
  | frameCompleted
  | signalLost
deriving DecidableEq, Repr

/-- The event a response delivers, if any: `done` of a BYTE, `lost` of a POLL (R29, R180). -/
def eventOf (i : Instr) (r : RspWord) : Option Event :=
  match i with
  | .byte _ _ _ => if rspFlag r then some .frameCompleted else none
  | .poll _ => if rspFlag r then some .signalLost else none
  | .read _ => none
  | .conn _ => none
  | .flag => none
  | .init => none

/-- What a legal response of the operation may be (R79). -/
def legalResponse (i : Instr) (r : RspWord) : Bool :=
  match i with
  | .byte _ _ _ => r == 0x000#10 || r == 0x100#10
  | .read _ => r.toNat ≤ 0x0FF
  | .conn _ => r == 0x000#10 || r == 0x100#10
  | .poll _ => r == 0x000#10 || r == 0x100#10
  | .flag => r == 0x000#10 || r == 0x100#10
  | .init => r == 0x000#10

/-! ### What a consumer cannot tell apart -/

/-- The two buffers agree on the slots that READ can still answer from: all channels while `frame_received` is 1, and
those the frame in progress has written (R131 (e), R210). -/
def agreeWhereReadable (s t : State) : Prop :=
  (s.frameReceived = true → ∀ n, 1 ≤ n → n ≤ Config.nchan → memGet s.buf n = memGet t.buf n) ∧
  (s.syncState = .receiving → ∀ n, 1 ≤ n → n < s.chanCnt.toNat → memGet s.buf n = memGet t.buf n)

/-- The states differ only in slots no READ will answer from before they are written again. -/
def sameToConsumer (s t : State) : Prop :=
  agreeWhereReadable s t ∧ { s with buf := [], rsp := none } = { t with buf := [], rsp := none }

/-- The part of the state that BYTE and INIT alone write: all but `frame_received`, which POLL clears (R32). -/
def sameSynchronizer (s t : State) : Prop :=
  { s with frameReceived := false, rsp := none } = { t with frameReceived := false, rsp := none }

/-! ### The host's duties, as premises (R190) -/

/-- A true time as the 32-bit operand the host presents (R7, D4). -/
def stamp (trueTime : Nat) : BitVec 32 := BitVec.ofNat 32 trueTime

/-- The physical-layer settings of the transport that H-1 names. -/
structure Transport where
  bitRate : Nat
  dataBits : Nat
  parity : Bool
deriving DecidableEq, Repr

/-- H-1: the transport is configured before the first BYTE: 250,000 bit/s, 8 data bits, no parity. -/
def dutyTransportConfigured (t : Transport) : Prop := t.bitRate = 250000 ∧ t.dataBits = 8 ∧ t.parity = false

/-- A byte as the transport received it: the true time of its arrival, in unbounded microseconds, and its value. -/
structure LineByte where
  atUs : Nat
  data : Byte
deriving DecidableEq, Repr

/-- The received byte that an operation hands over, if it is a BYTE. -/
def arrivalOf : Instr → Option Arrival
  | .byte tUs tMs data => some ⟨tUs, tMs, data⟩
  | .read _ => none
  | .conn _ => none
  | .poll _ => none
  | .flag => none
  | .init => none

/-- The received bytes that a sequence of operations hands over, in order. -/
def bytesOf (is : List Instr) : List Arrival := is.filterMap arrivalOf

/-- H-2: one BYTE per received byte, in arrival order, none dropped, none invented. -/
def dutyOneBytePerReceived (line : List LineByte) (is : List Instr) : Prop :=
  (bytesOf is).map Arrival.data = line.map LineByte.data

/-- H-3: the `t_us` of each BYTE is the arrival time of its byte, accurate to the microsecond. -/
def dutyArrivalTimes (line : List LineByte) (is : List Instr) : Prop :=
  (bytesOf is).map Arrival.tUs = line.map fun b => stamp b.atUs

/-- H-4: the `t_us` values of successive BYTE operations do not decrease. -/
def dutyMicrosMonotonic (as : List Arrival) : Prop := (as.map fun a => a.tUs.toNat).Pairwise (· ≤ ·)

/-- The `t_ms` operand of an operation, if it has one. -/
def millisOf : Instr → Option Millis
  | .byte _ tMs _ => some tMs
  | .conn tMs => some tMs
  | .poll tMs => some tMs
  | .read _ => none
  | .flag => none
  | .init => none

/-- H-5: the `t_ms` values of successive BYTE, CONN and POLL operations do not decrease. -/
def dutyMillisMonotonic (is : List Instr) : Prop := ((is.filterMap millisOf).map BitVec.toNat).Pairwise (· ≤ ·)

/-- An operation with the true time, in unbounded milliseconds, at which the host presents it. -/
structure Presented where
  atMs : Nat
  op : Instr
deriving DecidableEq, Repr

/-- H-5 in true time: the operations are presented at times that do not decrease, and every `t_ms` operand is that one
clock's value as 32 bits. -/
def dutyMillisFromOneClock (ps : List Presented) : Prop :=
  (ps.map Presented.atMs).Pairwise (· ≤ ·) ∧ ∀ p ∈ ps, ∀ tMs, millisOf p.op = some tMs → tMs = stamp p.atMs

/-- The operation is a POLL. -/
def isPoll : Instr → Bool
  | .byte _ _ _ => false
  | .read _ => false
  | .conn _ => false
  | .poll _ => true
  | .flag => false
  | .init => false

/-- H-6: POLL is presented periodically. No operation comes more than `period` milliseconds after the POLL before it, the
first of them counted from the time `last` of the POLL before the run. The period is the host's choice (D28). -/
def dutyPollPeriodic (period last : Nat) : List Presented → Prop
  | [] => True
  | p :: ps => p.atMs ≤ last + period ∧ dutyPollPeriodic period (if isPoll p.op then p.atMs else last) ps

/-- H-7: a second thread of control feeds bytes only through a first-in, first-out queue. The BYTE operations presented are,
in order, those it put in first. That operations come one at a time the port itself ensures (R85). -/
def dutyThroughQueue (enqueued : List Arrival) (is : List Instr) : Prop := bytesOf is <+: enqueued

/-- H-8: the block is reset before the first operation. -/
def dutyResetFirst (s : State) : Prop := s.resetSeen = true

/-- H-9 for one pair of true times, in unbounded microseconds or milliseconds: in order, and less than 2^32 apart. -/
def dutyWithinWrap (earlier later : Nat) : Prop := earlier ≤ later ∧ later - earlier < 2 ^ 32

/-! ### A frame on the line, in true time (R9, R102) -/

/-- Bytes on the line none of which shows a break, each at or after the one before it and at most 88 µs later. -/
def quietLine : Nat → List LineByte → Bool
  | _, [] => true
  | last, b :: bs => (last ≤ b.atUs && b.atUs - last ≤ Config.breakUs) && quietLine b.atUs bs

/-- A frame on the line after a byte at `last`: a null start code more than 88 µs (and less than the wrap of the clock, H-9)
later, then 512 channel bytes without a break. -/
def frameOnLine (last : Nat) : List LineByte → Bool
  | [] => false
  | b :: bs =>
    (Config.breakUs < b.atUs - last && b.atUs - last < 2 ^ 32) && b.data == Config.scNull && bs.length == Config.nchan
      && quietLine b.atUs bs

/-- The parameter `CLOCK_RELATION` (D24): a relation between true microseconds and true milliseconds that a claim may
take as a named premise. -/
abbrev ClockRelation := Nat → Nat → Prop

/-- Its default: none, every pair is allowed (D24, R189). -/
def noClockRelation : ClockRelation := fun _ _ => True

end Sys2Proof.Safety
end

