-- ==== Sys2Proof/Certificates/Slice0/Obligations.lean ====
section
/-! DEFINITION. The statements for the provers. Every statement about one operation says its whole next state: the
named fields change as written, every other field is as before. Responses are written as words (R78): `0x000` is flag 0
and value 0, `0x100` flag 1, `0x200` an illegal word.
The hypothesis `resetSeen` is duty H-8 of the host (R190), and `positionHasMeaning` shuts out the pairs of R23 that no rule
gives a meaning: what happens without them `OperationBeforeFirstResetIsRefused` and `PositionWithoutMeaningIsRefused` say. -/

open Sys2Proof Sys2Proof.Machine Sys2Proof.Safety

/-! ### The operation word -/

/-- R81: encode-then-decode is the identity, for every operation and every operand value. -/
def Obligations.DecodeOfEncodeIsIdentity : Prop :=
  ∀ i : Instr, decode (encode i) = .ok i

/-- R81: decode-then-encode is the identity on legal words, so no bit of a legal word is dropped. -/
def Obligations.EncodeOfDecodeIsIdentity : Prop :=
  ∀ (w : OpWord) (i : Instr), decode w = .ok i → encode i = w

/-- R77: a word decodes to an operation of a row's mnemonic iff `(w & mask) == match` for that row, and at most one row
matches any word. -/
def Obligations.WordSpellsOperationIffRowMatches : Prop :=
  (∀ (w : OpWord) (r : OpcodeRow), r ∈ opcodeMap →
    (r.accepts w = true ↔ ∃ i, decode w = .ok i ∧ mnemonicOf i = r.mnemonic)) ∧
  (∀ (w : OpWord) (r q : OpcodeRow), r ∈ opcodeMap → q ∈ opcodeMap →
    r.accepts w = true → q.accepts w = true → r = q)

/-- R80, R81: a word that matches no row is rejected by name: by its opcode where that is `0000` or `0111`..`1111`, and
otherwise because a reserved bit of its format is 1, by the mnemonic of its opcode's row. The all-zero and the all-one word are illegal. -/
def Obligations.IllegalWordIsRejectedByName : Prop :=
  (∀ w : OpWord, (∀ r ∈ opcodeMap, r.accepts w = false) →
    if opcodeOf w = 0x0#4 ∨ 0x7#4 ≤ opcodeOf w then decode w = .error (.undefinedOpcode (opcodeOf w))
    else ∃ r ∈ opcodeMap, opcodeOf r.pattern = opcodeOf w ∧ decode w = .error (.reservedBits r.mnemonic)) ∧
  (∃ e, decode 0x00000000000000000000#80 = .error e) ∧ (∃ e, decode 0xFFFFFFFFFFFFFFFFFFFF#80 = .error e)

/-- Words of the spec's table of legal words decode to the operations beside them (`95_test_vectors.md` section 2.1). -/
def Obligations.SampleWordsDecode : Prop :=
  decode 0x10123456789ABCDEF0A5#80 = .ok (.byte 0x12345678#32 0x9ABCDEF0#32 0xA5#8) ∧
  decode 0x20000000000000000200#80 = .ok (.read 512#16) ∧
  decode 0x300000000000002EE000#80 = .ok (.conn 12000#32) ∧
  decode 0x400000000000003A9900#80 = .ok (.poll 15001#32) ∧
  decode 0x50000000000000000000#80 = .ok .flag ∧
  decode 0x60000000000000000000#80 = .ok .init

/-! ### The step -/

/-- R13: where the host presents a word that decodes to an operation, the step performs exactly that operation, and what
the host presents after it remains. -/
def Obligations.StepPerformsPresentedOperation : Prop :=
  ∀ (s : State) (w : OpWord) (i : Instr) (q : List PortInput),
    s.inputs = .present w :: q → decode w = .ok i → step s = exec i { s with inputs := q }

/-- R80: a word that matches no row leaves every register and every buffer slot as it is, `last_byte_us` among them, and is
answered `0x200`. That this is a next state, not a stop, is the model's choice (log entry 2). -/
def Obligations.IllegalWordIsAnsweredIll : Prop :=
  ∀ (s : State) (w : OpWord) (q : List PortInput), s.resetSeen = true → s.positionHasMeaning = true →
    s.inputs = .present w :: q → (∀ r ∈ opcodeMap, r.accepts w = false) →
    step s = .next { s with inputs := q, rsp := some 0x200#10 }

/-- R161, R36: the reset input puts the block in the one state of R36, from any state, also before the first reset, and
gives no response; INIT gives the same state with its response. -/
def Obligations.ResetInputEqualsInitWithoutResponse : Prop :=
  ∀ (s : State) (q : List PortInput), s.inputs = .rst :: q →
    step s = .next { State.reset with inputs := q } ∧
    exec .init { s with inputs := q } = .next { State.reset with inputs := q, rsp := some 0x000#10 }

/-- Where the host presents nothing, a step changes nothing and gives no response: the model's choice (log entry 1). -/
def Obligations.NothingPresentedChangesNothing : Prop :=
  ∀ s : State, s.inputs = [] → step s = .next { s with rsp := none }

/-- R59: a run of the machine over the words presented is the fold of the operations over the sequence, with one response for
each in the same order (R85); what the host presents after them is untouched. -/
def Obligations.PortQueueRunIsFoldOfOperations : Prop :=
  ∀ (ops : List Instr) (q : List PortInput) (s u : State) (rs : List RspWord),
    runOps ops { s with inputs := q } = some (u, rs) →
    runSteps ops.length { s with inputs := ops.map (fun i => PortInput.present (encode i)) ++ q } = some (u, rs) ∧
    u.inputs = q ∧ rs.length = ops.length

/-! ### The frame buffer -/

/-- R56: `MemWrite(i, 1, v)` replaces slot `i` and no other slot, and touches no register; `MemRead(i, 1)` then gives `v`. A
slot above 512 does not exist (R51): the primitives fault there, by the model's choice (log entry 5). -/
def Obligations.MemWriteReplacesOneSlot : Prop :=
  ∀ (s : State) (i : Nat) (v : Byte),
    (i < 513 → ∃ t, memWrite s i v = .ok t ∧ memRead t i = .ok v ∧
      (∀ j, j ≠ i → memRead t j = memRead s j) ∧ t = { s with buf := t.buf }) ∧
    (513 ≤ i → memWrite s i v = .error (.noSuchSlot i) ∧ memRead s i = .error (.noSuchSlot i))

/-! ### BYTE -/

/-- R105: a byte with no break in `AwaitingBreak` is discarded; only `last_byte_us` changes. -/
def Obligations.ByteWithoutBreakInAwaitingBreakIsDiscarded : Prop :=
  ∀ (s : State) (tUs : Micros) (tMs : Millis) (data : Byte),
    s.resetSeen = true → s.syncState = .awaitingBreak → s.chanCnt = 0#10 → (tUs - s.lastByteUs).toNat ≤ 88 →
    exec (.byte tUs tMs data) s = .next { s with lastByteUs := tUs, rsp := some 0x000#10 }

/-- R104, R106, R111: from every position, a byte of value `0x00` with a gap above 88 is itself the start code: slot 0 takes
it and the position becomes `(Receiving, 1)`, whatever it was. The same at `(Receiving, 0)` without a break. -/
def Obligations.ByteWithBreakAndNullStartCodeStartsFrame : Prop :=
  ∀ (s : State) (tUs : Micros) (tMs : Millis),
    s.resetSeen = true → s.positionHasMeaning = true →
    (88 < (tUs - s.lastByteUs).toNat ∨ (s.syncState = .receiving ∧ s.chanCnt = 0#10)) →
    ∃ t, exec (.byte tUs tMs 0x00#8) s = .next t ∧
      t = { s with syncState := .receiving, chanCnt := 1#10, lastByteUs := tUs, buf := t.buf, rsp := some 0x000#10 } ∧
      memGet t.buf 0 = 0x00#8 ∧ ∀ a, a ≠ 0 → memGet t.buf a = memGet s.buf a

/-- R107: from every position, a byte of any other value with a gap above 88 is rejected as a start code: the position becomes
`(AwaitingBreak, 0)`, and the buffer, `frame_received` and `last_frame_ms` are untouched. The same at `(Receiving, 0)`. -/
def Obligations.ByteWithBreakAndOtherStartCodeIsRejected : Prop :=
  ∀ (s : State) (tUs : Micros) (tMs : Millis) (data : Byte),
    s.resetSeen = true → s.positionHasMeaning = true → data ≠ 0x00#8 →
    (88 < (tUs - s.lastByteUs).toNat ∨ (s.syncState = .receiving ∧ s.chanCnt = 0#10)) →
    exec (.byte tUs tMs data) s =
      .next { s with syncState := .awaitingBreak, chanCnt := 0#10, lastByteUs := tUs, rsp := some 0x000#10 }

/-- R108: in `Receiving` with `k` bytes accepted, `1 <= k <= 512`, a byte of any value with a gap of at most 88 is stored at
slot `k`, and exactly that slot changes. The count becomes `k + 1`; at `k = 512` that is past the last slot, and the step
completes the frame (R109, `Obligations.Byte513CompletesFrame`). -/
def Obligations.ByteInFrameStoresChannel : Prop :=
  ∀ (s : State) (tUs : Micros) (tMs : Millis) (data : Byte) (k : Nat),
    s.resetSeen = true → s.syncState = .receiving → s.chanCnt = BitVec.ofNat 10 k → 1 ≤ k → k ≤ 512 →
    (tUs - s.lastByteUs).toNat ≤ 88 →
    ∃ t, exec (.byte tUs tMs data) s = .next t ∧
      memGet t.buf k = data ∧ (∀ a, a ≠ k → memGet t.buf a = memGet s.buf a) ∧
      (k ≤ 511 →
        t = { s with chanCnt := BitVec.ofNat 10 (k + 1), lastByteUs := tUs, buf := t.buf, rsp := some 0x000#10 }) ∧
      (k = 512 → t.syncState = .awaitingBreak ∧ t.chanCnt = 0#10 ∧ t.lastByteUs = tUs)

/-- R109: the byte stored at slot 512 completes the frame: in one step `frame_received` becomes 1, `last_frame_ms` the
`t_ms` of this BYTE, the position `(AwaitingBreak, 0)`, and the response is `done`. -/
def Obligations.Byte513CompletesFrame : Prop :=
  ∀ (s : State) (tUs : Micros) (tMs : Millis) (data : Byte),
    s.resetSeen = true → s.syncState = .receiving → s.chanCnt = 512#10 → (tUs - s.lastByteUs).toNat ≤ 88 →
    ∃ t, exec (.byte tUs tMs data) s = .next t ∧
      t = { s with syncState := .awaitingBreak, chanCnt := 0#10, lastByteUs := tUs, lastFrameMs := tMs,
                   frameReceived := true, buf := t.buf, rsp := some 0x100#10 } ∧
      memGet t.buf 512 = data ∧ ∀ a, a ≠ 512 → memGet t.buf a = memGet s.buf a

/-- R32, R54, R103: the frame of every BYTE that takes a next state. It records its `t_us`; slot `byteSlot` takes the data
and every other slot reads as before; `frame_received` and `last_frame_ms` change in a completing step only. -/
def Obligations.ByteFrameIsOneSlotAndNamedRegisters : Prop :=
  ∀ (s t : State) (tUs : Micros) (tMs : Millis) (data : Byte), exec (.byte tUs tMs data) s = .next t →
    t.lastByteUs = tUs ∧ t.resetSeen = s.resetSeen ∧ t.inputs = s.inputs ∧
    (∀ a, byteSlot tUs data s = some a → a < 513 ∧ memGet t.buf a = data) ∧
    (∀ a, byteSlot tUs data s ≠ some a → memGet t.buf a = memGet s.buf a) ∧
    t.frameReceived = (s.frameReceived || byteCompletes tUs s) ∧
    t.lastFrameMs = (if byteCompletes tUs s then tMs else s.lastFrameMs) ∧
    t.rsp = some (if byteCompletes tUs s then 0x100#10 else 0x000#10)

/-- R114: in a BYTE that does not complete a frame, the value of `t_ms` has no effect on the state or the response. -/
def Obligations.ByteMillisUnusedUnlessCompleting : Prop :=
  ∀ (s : State) (tUs : Micros) (m1 m2 : Millis) (data : Byte), byteCompletes tUs s = false →
    exec (.byte tUs m1 data) s = exec (.byte tUs m2 data) s

/-- R115: the synchronizer's part of a BYTE depends on `t_us` only through the gap: moving `t_us` and `last_byte_us` by the
same amount moves the recorded arrival time and changes nothing else. -/
def Obligations.ByteDependsOnMicrosOnlyThroughGap : Prop :=
  ∀ (s t : State) (tUs d : Micros) (tMs : Millis) (data : Byte), exec (.byte tUs tMs data) s = .next t →
    exec (.byte (tUs + d) tMs data) { s with lastByteUs := s.lastByteUs + d } = .next { t with lastByteUs := tUs + d }

/-- R104: a break restarts regardless of the prior position: two states that differ in position only go to the same state. -/
def Obligations.BreakForgetsPosition : Prop :=
  ∀ (s : State) (y : SyncState) (c : Count) (tUs : Micros) (tMs : Millis) (data : Byte),
    s.positionHasMeaning = true → { s with syncState := y, chanCnt := c }.positionHasMeaning = true →
    88 < (tUs - s.lastByteUs).toNat →
    exec (.byte tUs tMs data) { s with syncState := y, chanCnt := c } = exec (.byte tUs tMs data) s

/-- R101: where the host's true times are in order and less than 2^32 µs apart (H-4, H-9), the computed gap is the true
elapsed time, whatever wrap lies between. -/
def Obligations.GapIsTrueElapsedTime : Prop :=
  ∀ earlier later : Nat, dutyWithinWrap earlier later →
    (gap (stamp later) (stamp earlier)).toNat = later - earlier ∧
    (showsBreak (gap (stamp later) (stamp earlier)) = true ↔ 88 < later - earlier)

/-- R23, R173, U6: at a pair that no rule gives a meaning every operation but INIT is refused by name, and so is every
word that matches no row. That INIT runs there ("legal in any state", R160) is the model's reading (log entry 4). -/
def Obligations.PositionWithoutMeaningIsRefused : Prop :=
  ∀ s : State, s.resetSeen = true →
    (s.syncState = .awaitingBreak ∧ s.chanCnt ≠ 0#10 ∨ s.syncState = .receiving ∧ 512#10 < s.chanCnt) →
    (∀ i : Instr, i ≠ .init → exec i s = .refused (.positionWithoutMeaning s.syncState s.chanCnt)) ∧
    (∀ (w : OpWord) (q : List PortInput), s.inputs = .present w :: q → (∀ r ∈ opcodeMap, r.accepts w = false) →
      step s = .refused (.positionWithoutMeaning s.syncState s.chanCnt))

/-! ### READ, CONN, POLL, FLAG, INIT -/

/-- R130: READ, of the word in format R, answers the stored byte where `frame_received` is 1 and `1 <= n <= 512`, else 0, and
changes no state. -/
def Obligations.ReadAnswersStoredByteOrZero : Prop :=
  ∀ (s : State) (n : ChanNum), s.resetSeen = true → s.positionHasMeaning = true →
    decode (0x2#4 ++ 0#60 ++ n) = .ok (.read n) ∧
    exec (.read n) s = .next { s with
      rsp := some (if s.frameReceived = true ∧ 1 ≤ n.toNat ∧ n.toNat ≤ 512 then 0#2 ++ memGet s.buf n.toNat else 0x000#10) }

/-- R132: CONN, of the word in format T, answers 1 iff `frame_received` is 1 and less than 2000 ms have elapsed, and changes no state. -/
def Obligations.ConnAnswersWithinLivenessWindow : Prop :=
  ∀ (s : State) (tMs : Millis), s.resetSeen = true → s.positionHasMeaning = true →
    decode (0x3#4 ++ 0#36 ++ tMs ++ 0#8) = .ok (.conn tMs) ∧
    exec (.conn tMs) s = .next { s with
      rsp := some (if s.frameReceived = true ∧ (tMs - s.lastFrameMs).toNat < 2000 then 0x100#10 else 0x000#10) }

/-- R134: POLL, of the word in format T, clears `frame_received` and answers 1 iff it was 1 and more than 5000 ms have elapsed;
nothing else changes. -/
def Obligations.PollClearsFlagPastStaleWindow : Prop :=
  ∀ (s : State) (tMs : Millis), s.resetSeen = true → s.positionHasMeaning = true →
    decode (0x4#4 ++ 0#36 ++ tMs ++ 0#8) = .ok (.poll tMs) ∧
    exec (.poll tMs) s = .next
      (if s.frameReceived = true ∧ 5000 < (tMs - s.lastFrameMs).toNat then
        { s with frameReceived := false, rsp := some 0x100#10 }
      else { s with rsp := some 0x000#10 })

/-- R136: FLAG, the word of format Z with opcode `0101`, answers `frame_received`, without side effect. -/
def Obligations.FlagAnswersFrameReceived : Prop :=
  ∀ s : State, s.resetSeen = true → s.positionHasMeaning = true →
    decode (0x5#4 ++ 0#76) = .ok .flag ∧
    exec .flag s = .next { s with rsp := some (if s.frameReceived = true then 0x100#10 else 0x000#10) }

/-- R160, R36: INIT, the word of format Z with opcode `0110`, in any state leaves the one state of R36 with response `0x000`: every
slot `0x00`, `AwaitingBreak`, `chan_cnt`, `frame_received`, `last_byte_us` and `last_frame_ms` 0; INIT twice equals INIT
once; FLAG, READ, CONN and POLL after it answer `0x000` (R201). On a block that was never reset this is the model's reading
(log entry 3, as is `resetSeen`); the canonical form of the buffer is the model's (log entry 10). -/
def Obligations.InitLeavesTheOneInitialState : Prop :=
  decode (0x6#4 ++ 0#76) = .ok .init ∧
  ∀ s : State, ∃ t, exec .init s = .next t ∧ exec .init t = .next t ∧
    exec .flag t = .next t ∧ (∀ n, exec (.read n) t = .next t) ∧ (∀ m, exec (.conn m) t = .next t) ∧
    (∀ m, exec (.poll m) t = .next t) ∧
    t.syncState = .awaitingBreak ∧ t.chanCnt = 0#10 ∧ t.frameReceived = false ∧ t.lastByteUs = 0#32 ∧
    t.lastFrameMs = 0#32 ∧ (∀ a, memGet t.buf a = 0x00#8) ∧ t.buf.wf = true ∧ t.resetSeen = true ∧
    t.inputs = s.inputs ∧ t.rsp = some 0x000#10

/-! ### All six operations -/

/-- R32, R138: the access matrix. Whatever the operation, a register or slot that changed was changed by an operation the
matrix gives write access: `last_frame_ms` by a completing BYTE or INIT, `frame_received` set by a completing BYTE and
cleared by a POLL that answers `lost` or by INIT, everything else by BYTE or INIT. -/
def Obligations.AccessMatrixIsKept : Prop :=
  ∀ (i : Instr) (s t : State), exec i s = .next t →
    (writesSynchronizer i = false → t = { s with frameReceived := t.frameReceived, rsp := t.rsp }) ∧
    (t.lastFrameMs ≠ s.lastFrameMs → i = .init ∨ (isByte i = true ∧ t.rsp = some 0x100#10)) ∧
    (s.frameReceived = false → t.frameReceived = true → isByte i = true ∧ t.rsp = some 0x100#10) ∧
    (s.frameReceived = true → t.frameReceived = false → i = .init ∨ ((∃ m, i = .poll m) ∧ t.rsp = some 0x100#10)) ∧
    (t.resetSeen ≠ s.resetSeen → i = .init) ∧ t.inputs = s.inputs

/-- R55: READ, CONN and FLAG change no state; the same operation again gives the same response. -/
def Obligations.ReadConnFlagAreIdempotent : Prop :=
  ∀ (i : Instr) (s t : State), (∃ n, i = .read n) ∨ (∃ m, i = .conn m) ∨ i = .flag → exec i s = .next t →
    t = { s with rsp := t.rsp } ∧ exec i t = .next t

/-- R170, R79: after the first reset and at a position with a meaning, every operation ends in a next state with exactly one
response, of the shape its row gives it. -/
def Obligations.EveryOperationAnswersOnce : Prop :=
  ∀ (i : Instr) (s : State), s.resetSeen = true → s.positionHasMeaning = true →
    ∃ t r, exec i s = .next t ∧ t.rsp = some r ∧ legalResponse i r = true ∧ t.inputs = s.inputs ∧ t.resetSeen = true

/-- R170, R173: "Fault: never". No operation and no step faults, from any state. -/
def Obligations.NothingFaults : Prop :=
  (∀ (i : Instr) (s : State), noFault (exec i s) = true) ∧ (∀ s : State, noFault (step s) = true)

/-- R202: before the first reset every operation but INIT is refused by name. That INIT runs there, and that a word that
matches no row is refused there too, is the model's reading (log entry 3). -/
def Obligations.OperationBeforeFirstResetIsRefused : Prop :=
  ∀ s : State, s.resetSeen = false →
    (∀ i : Instr, i ≠ .init → exec i s = .refused .beforeFirstReset) ∧
    (∀ (w : OpWord) (q : List PortInput), s.inputs = .present w :: q → (∀ r ∈ opcodeMap, r.accepts w = false) →
      step s = .refused .beforeFirstReset)

/-- R171, R173: every anomaly is absorbed: the operation ends in a next state; `last_frame_ms` is untouched; only signal
loss touches `frame_received` and is surfaced, and every other anomaly is answered `0x000`. -/
def Obligations.AnomaliesAreAbsorbed : Prop :=
  ∀ (i : Instr) (s : State) (a : Anomaly), s.resetSeen = true → s.positionHasMeaning = true → a ∈ anomaliesOf i s →
    ∃ t, exec i s = .next t ∧ t.lastFrameMs = s.lastFrameMs ∧
      (a = .signalLoss → s.frameReceived = true ∧ t = { s with frameReceived := false, rsp := some 0x100#10 }) ∧
      (a ≠ .signalLoss → t.frameReceived = s.frameReceived ∧ t.rsp = some 0x000#10) ∧
      (a = .invalidStartCode → t.syncState = .awaitingBreak ∧ t.chanCnt = 0#10 ∧ t.buf = s.buf) ∧
      (a = .truncatedFrame → (t.syncState = .receiving ∧ t.chanCnt = 1#10) ∨ (t.syncState = .awaitingBreak ∧ t.chanCnt = 0#10)) ∧
      (a = .outOfRangeRead → t = { s with rsp := some 0x000#10 })

/-- R180, R109, R134: the two events. A response delivers *frame completed* iff the BYTE stored the 513th byte, and *signal
lost* iff the POLL cleared `frame_received`; no other operation delivers one. -/
def Obligations.EventsAreCompletionAndLoss : Prop :=
  ∀ (i : Instr) (s t : State) (r : RspWord), exec i s = .next t → t.rsp = some r →
    (eventOf i r = some .frameCompleted ↔ ∃ tUs tMs data, i = .byte tUs tMs data ∧ byteCompletes tUs s = true) ∧
    (eventOf i r = some .signalLost ↔ (∃ m, i = .poll m) ∧ s.frameReceived = true ∧ t.frameReceived = false)

/-! ### Liveness -/

/-- R137: the three regions after a completed frame, with `e` the elapsed time: what CONN, READ, FLAG and POLL answer, and
that after the POLL that declares the loss READ and FLAG answer 0 and a further POLL answers 0. -/
def Obligations.LivenessHasThreeRegions : Prop :=
  ∀ (s : State) (tMs : Millis) (n : ChanNum), s.resetSeen = true → s.positionHasMeaning = true → s.frameReceived = true →
    1 ≤ n.toNat → n.toNat ≤ 512 →
    let e := (tMs - s.lastFrameMs).toNat
    exec (.read n) s = .next { s with rsp := some (0#2 ++ memGet s.buf n.toNat) } ∧
    exec .flag s = .next { s with rsp := some 0x100#10 } ∧
    exec (.conn tMs) s = .next { s with rsp := some (if e < 2000 then 0x100#10 else 0x000#10) } ∧
    (e ≤ 5000 → exec (.poll tMs) s = .next { s with rsp := some 0x000#10 }) ∧
    (5000 < e → ∃ t, exec (.poll tMs) s = .next t ∧ t = { s with frameReceived := false, rsp := some 0x100#10 } ∧
      exec (.read n) t = .next { t with rsp := some 0x000#10 } ∧ exec .flag t = .next { t with rsp := some 0x000#10 } ∧
      exec (.conn tMs) t = .next { t with rsp := some 0x000#10 } ∧ exec (.poll tMs) t = .next { t with rsp := some 0x000#10 })

/-- R133 (c), H-5, H-9: with a clock that does not run backwards, less than 2^32 ms after the last completion, CONN decays by
time alone: once it answers 0 it answers 0 at every later time. -/
def Obligations.ConnectedDecaysByTimeAlone : Prop :=
  ∀ (s t u : State) (completed now later : Nat), s.lastFrameMs = stamp completed →
    dutyWithinWrap completed later → completed ≤ now → now ≤ later →
    exec (.conn (stamp now)) s = .next t → t.rsp = some 0x000#10 →
    exec (.conn (stamp later)) s = .next u → u.rsp = some 0x000#10

/-- R135 (b), (c), (d), R201: from a state with `frame_received` 0, over any operations of which no BYTE completes a frame, every
response is `0x000`: no READ shows a byte, no CONN connects, no POLL notifies a loss again. -/
def Obligations.NoSignalAnswersZeroUntilNextFrame : Prop :=
  ∀ (ops : List Instr) (s u : State) (rs : List RspWord), s.frameReceived = false → runOps ops s = some (u, rs) →
    (∀ p ∈ ops.zip rs, isByte p.1 = true → p.2 = 0x000#10) →
    u.frameReceived = false ∧ ∀ r ∈ rs, r = 0x000#10

/-- R184: a POLL and a completing BYTE "at the same time": BYTE first, no loss is declared; POLL first, the loss is declared
and the BYTE ends it at once; both orders end in the same state of the block. -/
def Obligations.PollAndCompletionOrdersEndAlike : Prop :=
  ∀ (s : State) (tUs : Micros) (tMs t : Millis) (data : Byte), s.resetSeen = true → s.frameReceived = true →
    byteCompletes tUs s = true → 5000 < (t - s.lastFrameMs).toNat → (t - tMs).toNat ≤ 5000 →
    ∃ u v, runOps [.byte tUs tMs data, .poll t] s = some (u, [0x100#10, 0x000#10]) ∧
      runOps [.poll t, .byte tUs tMs data] s = some (v, [0x100#10, 0x100#10]) ∧
      u = { v with rsp := u.rsp } ∧ u.frameReceived = true

/-! ### Invariants -/

/-- R23, R30: every step keeps the invariant, from every state that meets it: the position is one of the reachable pairs, the
buffer keeps its canonical form, slot 0 holds `0x00`, and the block stays reset. -/
def Obligations.StepKeepsInvariant : Prop :=
  ∀ s t : State, Inv s → step s = .next t → Inv t

/-- R36: the state after reset meets the invariant. -/
def Obligations.ResetMeetsInvariant : Prop := Inv State.reset

/-- R170, R161: from every state that meets the invariant, every step is a next state, whatever the host presents. That an
illegal word and an empty port end in a next state, too, is the model's choice (log entries 2 and 1). -/
def Obligations.InvariantStatesAlwaysStep : Prop :=
  ∀ s : State, Inv s → ∃ t, step s = .next t

/-- The canonical form of the buffer (the model's, log entry 10) is kept by every step, from any position. -/
def Obligations.StepKeepsBufferCanonical : Prop :=
  ∀ s t : State, s.buf.wf = true → step s = .next t → t.buf.wf = true

/-! ### Runs -/

/-- P2, R116: from any state, 513 bytes, the first with a break and `0x00`, then 512 without a break, complete a frame: the flag
is 1, `last_frame_ms` is the last byte's `t_ms`, only the last response is `done`, and channel `i` reads as the `i`-th byte. -/
def Obligations.FullFrameIsReceived : Prop :=
  ∀ (s : State) (as : List Arrival), s.resetSeen = true → s.positionHasMeaning = true → isFrame s.lastByteUs as = true →
    ∃ u, runOps (as.map Arrival.op) s = some (u, List.replicate 512 0x000#10 ++ [0x100#10]) ∧
      u.frameReceived = true ∧ u.syncState = .awaitingBreak ∧ u.chanCnt = 0#10 ∧
      as.getLast?.map Arrival.tMs = some u.lastFrameMs ∧
      ∀ (i : Nat) (a : Arrival), 1 ≤ i → as[i]? = some a →
        exec (.read (BitVec.ofNat 16 i)) u = .next { u with rsp := some (0#2 ++ a.data) }

/-- R116: no shorter and no other sequence completes a frame. Over any bytes from `AwaitingBreak`, the last byte's response is
`done` iff the last 513 bytes have the shape of a frame. -/
def Obligations.FrameCompletesExactlyAfterFrameShape : Prop :=
  ∀ (s u : State) (as : List Arrival) (rs : List RspWord), s.syncState = .awaitingBreak →
    runOps (as.map Arrival.op) s = some (u, rs) →
    (rs.getLast? = some 0x100#10 ↔ ∃ pre f, as = pre ++ f ∧ isFrame (lastStamp s.lastByteUs pre) f = true)

/-- R210, R66, R218: the torn frame. After a start code and `k` channel bytes, `k <= 511`, over a completed frame, READ answers the
new byte for channels `1..k` and the old byte for the rest, and `frame_received` and `last_frame_ms` are as they were. -/
def Obligations.ReadDuringReceptionIsTorn : Prop :=
  ∀ (s : State) (as : List Arrival) (k : Nat), s.resetSeen = true → s.positionHasMeaning = true →
    s.frameReceived = true → k ≤ 511 → frameStart k s.lastByteUs as = true →
    ∃ u, runOps (as.map Arrival.op) s = some (u, List.replicate (k + 1) 0x000#10) ∧
      u.syncState = .receiving ∧ u.chanCnt = BitVec.ofNat 10 (k + 1) ∧
      u.frameReceived = true ∧ u.lastFrameMs = s.lastFrameMs ∧
      (∀ (i : Nat) (a : Arrival), 1 ≤ i → as[i]? = some a →
        exec (.read (BitVec.ofNat 16 i)) u = .next { u with rsp := some (0#2 ++ a.data) }) ∧
      (∀ i : Nat, k < i → i ≤ 512 →
        exec (.read (BitVec.ofNat 16 i)) u = .next { u with rsp := some (0#2 ++ memGet s.buf i) })

/-- R110, R105: bytes without a break in `AwaitingBreak`, however many (those beyond index 512 among them), are ignored without
error: only `last_byte_us` changes and every response is `0x000`. -/
def Obligations.SurplusBytesAreIgnored : Prop :=
  ∀ (s : State) (as : List Arrival), s.resetSeen = true → s.syncState = .awaitingBreak → s.chanCnt = 0#10 →
    quiet s.lastByteUs as = true →
    ∃ u, runOps (as.map Arrival.op) s = some (u, List.replicate as.length 0x000#10) ∧
      u = { s with lastByteUs := lastStamp s.lastByteUs as, rsp := u.rsp }

/-- R60, R32: the interleaving is invisible to the synchronizer: leaving every READ, CONN, POLL and FLAG out of a run changes
neither the position, nor the timing registers, nor any slot. -/
def Obligations.ConsumersDoNotDisturbSynchronizer : Prop :=
  ∀ (ops : List Instr) (s u : State) (rs : List RspWord), runOps ops s = some (u, rs) →
    ∃ v rs', runOps (ops.filter writesSynchronizer) s = some (v, rs') ∧ sameSynchronizer u v

/-- R131 (e): noninterference of stale bytes. Two states that differ only in slots no READ will answer from before they are
written again give the same responses to every sequence of operations; so a byte stored before a loss event is never
returned after it. -/
def Obligations.StaleBytesAreNeverAnswered : Prop :=
  ∀ (ops : List Instr) (s t u : State) (rs : List RspWord), sameToConsumer s t → runOps ops s = some (u, rs) →
    ∃ v, runOps ops t = some (v, rs) ∧ sameToConsumer u v

/-- R27: what `last_frame_ms` holds while `frame_received` is 0, so its reset value, is never observed: no sequence of
operations answers differently for another value. -/
def Obligations.LastFrameTimeUnobservedWithoutFrame : Prop :=
  ∀ (ops : List Instr) (s u : State) (m : Millis) (rs : List RspWord), s.frameReceived = false →
    runOps ops s = some (u, rs) → ∃ v, runOps ops { s with lastFrameMs := m } = some (v, rs)

/-! ### The port, and traces -/

/-- R85: over any cycles without `rst`, whatever the latency of each operation, the words presented are performed in the order
presented, one at a time, each answered once and in the same order; at most one, the last, is in flight. The cycle in which
each is answered is a free input of the model's (log entry 11). -/
def Obligations.PortAnswersInOrderPresented : Prop :=
  ∀ (cs : List PortSignals) (p u : Port) (tr : PortTrace), p.inFlight = none → (∀ c ∈ cs, c.rst = false) →
    Port.run cs p = some (u, tr) →
    tr.presented = tr.presented.take tr.responses.length ++ u.inFlight.toList ∧
    ∃ v, runWords (tr.presented.take tr.responses.length) p.block = some (v, tr.responses) ∧
      v.noResponse = u.block.noResponse

/-- R161, R85: `rst` for one cycle, in any state of the port, abandons the operation in flight, produces no response, and leaves the
state of R36. That `op_ready` is 1 after it, and that a word offered in that very cycle is not presented, is the model's
reading (log entry 11). -/
def Obligations.PortResetAbandonsOperationInFlight : Prop :=
  ∀ (p : Port) (c : PortSignals), c.rst = true →
    ∃ q, p.cycle c = .next q ∧ q.block = { State.reset with inputs := p.block.inputs } ∧
      q.opReady = true ∧ q.rspValid = false ∧ p.presents c = false

/-- R84: GBYTE makes the gap computed by the step equal to its operand, for `0 <= gap < 2^32`; and FRAME with `gap0 > 88`,
`gap <= 88`, `sc = 0x00` and 512 values writes 513 bytes of the shape of a frame, the `i`-th channel byte its `i`-th value. -/
def Obligations.PseudoOperationsMakeTheirGaps : Prop :=
  (∀ (prev : Micros) (g m d : Nat), wellFormed (.gbyte g m d) = true →
    ∃ tUs, TraceOp.expand prev (.gbyte g m d) = [.byte tUs (BitVec.ofNat 32 m) (BitVec.ofNat 8 d)] ∧
      (gap tUs prev).toNat = g) ∧
  (∀ (prev : Micros) (g0 g m : Nat) (vs : List Nat), wellFormed (.frame g0 g m 0 vs) = true →
    88 < g0 → g ≤ 88 → vs.length = 512 →
    ∃ as, TraceOp.expand prev (.frame g0 g m 0 vs) = as.map Arrival.op ∧ isFrame prev as = true ∧
      as.tail.map Arrival.data = vs.map (BitVec.ofNat 8))

/-! ### Under the host's duties -/

/-- R190 (H-2, H-3, H-9), R116: a frame on the line is received, whatever consumers' operations the host mixes in. Where it
presents one BYTE per received byte, each with its arrival time, the channel slots hold the line's bytes at the end, and
`last_frame_ms` is the `t_ms` of the last of them. -/
def Obligations.FrameOnLineIsReceived : Prop :=
  ∀ (s : State) (bs : List LineByte) (ops : List Instr) (last : Nat), dutyResetFirst s → s.positionHasMeaning = true →
    s.lastByteUs = stamp last → frameOnLine last bs = true → dutyOneBytePerReceived bs ops →
    dutyArrivalTimes bs ops → Instr.init ∉ ops →
    ∃ u rs, runOps ops s = some (u, rs) ∧ u.syncState = .awaitingBreak ∧ u.chanCnt = 0#10 ∧
      (bytesOf ops).getLast?.map Arrival.tMs = some u.lastFrameMs ∧
      ∀ (i : Nat) (b : LineByte), 1 ≤ i → bs[i]? = some b → memGet u.buf i = b.data

/-- R190 (H-5, H-6, H-9), R134, R211, D28: with POLL presented every `period` ms, a silence that outlasts the stale window and
one period has been notified exactly once: one POLL, at most one period after the window, answered `lost`, every other POLL
answered 0, and at the end `frame_received` is 0. -/
def Obligations.LossIsDeclaredWithinOnePollPeriod : Prop :=
  ∀ (ps : List Presented) (s u : State) (rs : List RspWord) (completed lastPoll period : Nat),
    s.frameReceived = true → s.lastFrameMs = stamp completed → lastPoll ≤ completed + 5000 →
    dutyMillisFromOneClock ps → dutyPollPeriodic period lastPoll ps → (∀ p ∈ ps, dutyWithinWrap completed p.atMs) →
    runOps (ps.map Presented.op) s = some (u, rs) → Instr.init ∉ ps.map Presented.op →
    (∀ p ∈ (ps.map Presented.op).zip rs, isByte p.1 = true → p.2 = 0x000#10) →
    (∃ p ∈ ps, completed + 5000 + period < p.atMs) →
    u.frameReceived = false ∧
    ∃ pre p post, ps = pre ++ p :: post ∧ isPoll p.op = true ∧ p.atMs ≤ completed + 5000 + period ∧
      rs[pre.length]? = some 0x100#10 ∧
      ∀ (k : Nat) (q : Presented), ps[k]? = some q → isPoll q.op = true → k ≠ pre.length → rs[k]? = some 0x000#10
end

