-- ==== Sys2Proof/Laws/Decode.lean ====
section
/-! SUPPORT. The fields of an operation word as numbers, the fields of an encoded operation, and each row of the opcode map
as a condition on fields (R72 to R77). -/

namespace Sys2Proof

theorem toNat_append_eq {n m : Nat} (x : BitVec n) (y : BitVec m) :
    (x ++ y).toNat = x.toNat * 2 ^ m + y.toNat := by
  rw [BitVec.toNat_append, ← Nat.shiftLeft_add_eq_or_of_lt y.isLt, Nat.shiftLeft_eq]

/-- A field as a number (R10, R76). -/
theorem toNat_field (lo len : Nat) (w : OpWord) : (field lo len w).toNat = w.toNat / 2 ^ lo % 2 ^ len := by
  simp [field, Nat.shiftRight_eq_div_pow]

/-- A field with a given value, as an equation on the word's number. -/
theorem field_eq_iff (lo len : Nat) (w : OpWord) (v : BitVec len) :
    field lo len w = v ↔ w.toNat / 2 ^ lo % 2 ^ len = v.toNat := by
  rw [BitVec.toNat_eq, toNat_field]

/-! ### Encoded operations as numbers -/

theorem encode_byte_toNat (u : Micros) (m : Millis) (d : Byte) :
    (encode (.byte u m d)).toNat = 0x10000000000000000000 + u.toNat * 2 ^ 40 + m.toNat * 2 ^ 8 + d.toNat := by
  have : (encode (.byte u m d)).toNat = (0x1#4 ++ 0#4 ++ u ++ m ++ d).toNat := rfl
  simp only [this, toNat_append_eq, BitVec.toNat_ofNat]
  omega

theorem encode_read_toNat (n : ChanNum) :
    (encode (.read n)).toNat = 0x20000000000000000000 + n.toNat := by
  have : (encode (.read n)).toNat = (0x2#4 ++ 0#60 ++ n).toNat := rfl
  simp only [this, toNat_append_eq, BitVec.toNat_ofNat]
  omega

theorem encode_conn_toNat (m : Millis) :
    (encode (.conn m)).toNat = 0x30000000000000000000 + m.toNat * 2 ^ 8 := by
  have : (encode (.conn m)).toNat = (0x3#4 ++ 0#36 ++ m ++ 0#8).toNat := rfl
  simp only [this, toNat_append_eq, BitVec.toNat_ofNat]
  omega

theorem encode_poll_toNat (m : Millis) :
    (encode (.poll m)).toNat = 0x40000000000000000000 + m.toNat * 2 ^ 8 := by
  have : (encode (.poll m)).toNat = (0x4#4 ++ 0#36 ++ m ++ 0#8).toNat := rfl
  simp only [this, toNat_append_eq, BitVec.toNat_ofNat]
  omega

theorem encode_flag_eq : encode .flag = 0x50000000000000000000#80 := by decide

theorem encode_init_eq : encode .init = 0x60000000000000000000#80 := by decide

/-! ### The rows of the opcode map -/

/-- A masked comparison, part by part. -/
theorem append_and_append_eq_iff {n m : Nat} (x a p : BitVec n) (y b q : BitVec m) :
    ((x ++ y) &&& (a ++ b) = p ++ q) ↔ (x &&& a = p ∧ y &&& b = q) := by
  rw [BitVec.and_append]
  constructor
  · intro h
    constructor
    · simpa [BitVec.extractLsb'_append_eq_left] using congrArg (BitVec.extractLsb' m n) h
    · simpa [BitVec.extractLsb'_append_eq_right] using congrArg (BitVec.extractLsb' 0 m) h
  · rintro ⟨rfl, rfl⟩
    rfl

theorem and_ones {n : Nat} (x : BitVec n) : x &&& BitVec.allOnes n = x := BitVec.and_allOnes

/-- A word in two fields, at bit `lo`. -/
theorem word_eq_two_fields (w : OpWord) :
    w = (field 72 8 w ++ field 0 72 w : BitVec (8 + 72)) ∧
    w = (field 16 64 w ++ field 0 16 w : BitVec (64 + 16)) ∧
    w = (field 40 40 w ++ field 8 32 w ++ field 0 8 w : BitVec (40 + 32 + 8)) := by
  have hw := w.isLt
  refine ⟨BitVec.eq_of_toNat_eq ?_, BitVec.eq_of_toNat_eq ?_, BitVec.eq_of_toNat_eq ?_⟩ <;>
    simp only [toNat_append_eq, toNat_field] <;> omega

/-- A word spells BYTE by the map iff its top 8 bits are `0x10` (R72, R77). -/
theorem maskB_iff (w p : OpWord) (hp : p.toNat % 2 ^ 72 = 0) :
    w &&& 0xFF000000000000000000#80 = p ↔ field 72 8 w = field 72 8 p := by
  have hm : 0xFF000000000000000000#80 = (BitVec.allOnes 8 ++ 0#72 : BitVec (8 + 72)) := by decide
  have hq : p = (field 72 8 p ++ 0#72 : BitVec (8 + 72)) := by
    have h0 : field 0 72 p = 0#72 := (field_eq_iff 0 72 p _).2 (by simpa using hp)
    have := (word_eq_two_fields p).1
    rwa [h0] at this
  have h := append_and_append_eq_iff (field 72 8 w) (BitVec.allOnes 8) (field 72 8 p) (field 0 72 w) 0#72 0#72
  simp only [and_ones, BitVec.and_zero, and_true] at h
  rw [← h, ← hm, ← hq]
  exact Eq.congr_left (congrArg (· &&& _) (word_eq_two_fields w).1)

/-- A word spells READ by the map iff its top 64 bits are the opcode and zeros (R74, R77). -/
theorem maskR_iff (w p : OpWord) (hp : p.toNat % 2 ^ 16 = 0) :
    w &&& 0xFFFFFFFFFFFFFFFF0000#80 = p ↔ field 16 64 w = field 16 64 p := by
  have hm : 0xFFFFFFFFFFFFFFFF0000#80 = (BitVec.allOnes 64 ++ 0#16 : BitVec (64 + 16)) := by decide
  have hq : p = (field 16 64 p ++ 0#16 : BitVec (64 + 16)) := by
    have h0 : field 0 16 p = 0#16 := (field_eq_iff 0 16 p _).2 (by simpa using hp)
    have := (word_eq_two_fields p).2.1
    rwa [h0] at this
  have h := append_and_append_eq_iff (field 16 64 w) (BitVec.allOnes 64) (field 16 64 p) (field 0 16 w) 0#16 0#16
  simp only [and_ones, BitVec.and_zero, and_true] at h
  rw [← h, ← hm, ← hq]
  exact Eq.congr_left (congrArg (· &&& _) (word_eq_two_fields w).2.1)

/-- A word spells CONN or POLL by the map iff bits 79:40 and 7:0 are those of the row (R73, R77). -/
theorem maskT_iff (w p : OpWord) (hp : field 8 32 p = 0#32) :
    w &&& 0xFFFFFFFFFF00000000FF#80 = p ↔ field 40 40 w = field 40 40 p ∧ field 0 8 w = field 0 8 p := by
  have hm : 0xFFFFFFFFFF00000000FF#80 = (BitVec.allOnes 40 ++ 0#32 ++ BitVec.allOnes 8 : BitVec (40 + 32 + 8)) := by
    decide
  have hq : p = (field 40 40 p ++ 0#32 ++ field 0 8 p : BitVec (40 + 32 + 8)) := by
    have := (word_eq_two_fields p).2.2
    rwa [hp] at this
  have h := append_and_append_eq_iff (field 40 40 w ++ field 8 32 w) (BitVec.allOnes 40 ++ 0#32) (field 40 40 p ++ 0#32)
    (field 0 8 w) (BitVec.allOnes 8) (field 0 8 p)
  have h' := append_and_append_eq_iff (field 40 40 w) (BitVec.allOnes 40) (field 40 40 p) (field 8 32 w) 0#32 0#32
  simp only [and_ones, BitVec.and_zero, and_true] at h h'
  rw [h'] at h
  rw [← h, ← hm, ← hq]
  exact Eq.congr_left (congrArg (· &&& _) (word_eq_two_fields w).2.2)

/-- A word spells FLAG or INIT by the map iff it is the row's pattern (R75, R77). -/
theorem maskZ_iff (w p : OpWord) : w &&& 0xFFFFFFFFFFFFFFFFFFFF#80 = p ↔ w = p := by
  have hm : 0xFFFFFFFFFFFFFFFFFFFF#80 = BitVec.allOnes 80 := by decide
  rw [hm, and_ones]

end Sys2Proof
end

