-- ==== Sys2Proof/Laws/State.lean ====
section
/-! SUPPORT. What each register update does to each field, so that no later proof unfolds a record update. -/

namespace Sys2Proof.Machine

variable (s : State)

/-! ### `State.setLastByteUs` -/

@[simp] theorem setLastByteUs_syncState (t : Micros) : (s.setLastByteUs t).syncState = s.syncState := rfl
@[simp] theorem setLastByteUs_chanCnt (t : Micros) : (s.setLastByteUs t).chanCnt = s.chanCnt := rfl
@[simp] theorem setLastByteUs_lastByteUs (t : Micros) : (s.setLastByteUs t).lastByteUs = t := rfl
@[simp] theorem setLastByteUs_lastFrameMs (t : Micros) : (s.setLastByteUs t).lastFrameMs = s.lastFrameMs := rfl
@[simp] theorem setLastByteUs_frameReceived (t : Micros) : (s.setLastByteUs t).frameReceived = s.frameReceived := rfl
@[simp] theorem setLastByteUs_buf (t : Micros) : (s.setLastByteUs t).buf = s.buf := rfl
@[simp] theorem setLastByteUs_resetSeen (t : Micros) : (s.setLastByteUs t).resetSeen = s.resetSeen := rfl
@[simp] theorem setLastByteUs_inputs (t : Micros) : (s.setLastByteUs t).inputs = s.inputs := rfl
@[simp] theorem setLastByteUs_rsp (t : Micros) : (s.setLastByteUs t).rsp = s.rsp := rfl

/-! ### `State.setPosition` -/

@[simp] theorem setPosition_syncState (y : SyncState) (c : Count) : (s.setPosition y c).syncState = y := rfl
@[simp] theorem setPosition_chanCnt (y : SyncState) (c : Count) : (s.setPosition y c).chanCnt = c := rfl
@[simp] theorem setPosition_lastByteUs (y : SyncState) (c : Count) : (s.setPosition y c).lastByteUs = s.lastByteUs := rfl
@[simp] theorem setPosition_lastFrameMs (y : SyncState) (c : Count) : (s.setPosition y c).lastFrameMs = s.lastFrameMs := rfl
@[simp] theorem setPosition_frameReceived (y : SyncState) (c : Count) : (s.setPosition y c).frameReceived = s.frameReceived := rfl
@[simp] theorem setPosition_buf (y : SyncState) (c : Count) : (s.setPosition y c).buf = s.buf := rfl
@[simp] theorem setPosition_resetSeen (y : SyncState) (c : Count) : (s.setPosition y c).resetSeen = s.resetSeen := rfl
@[simp] theorem setPosition_inputs (y : SyncState) (c : Count) : (s.setPosition y c).inputs = s.inputs := rfl
@[simp] theorem setPosition_rsp (y : SyncState) (c : Count) : (s.setPosition y c).rsp = s.rsp := rfl

/-! ### `State.setSlot` -/

@[simp] theorem setSlot_syncState (i : Nat) (v : Byte) : (s.setSlot i v).syncState = s.syncState := rfl
@[simp] theorem setSlot_chanCnt (i : Nat) (v : Byte) : (s.setSlot i v).chanCnt = s.chanCnt := rfl
@[simp] theorem setSlot_lastByteUs (i : Nat) (v : Byte) : (s.setSlot i v).lastByteUs = s.lastByteUs := rfl
@[simp] theorem setSlot_lastFrameMs (i : Nat) (v : Byte) : (s.setSlot i v).lastFrameMs = s.lastFrameMs := rfl
@[simp] theorem setSlot_frameReceived (i : Nat) (v : Byte) : (s.setSlot i v).frameReceived = s.frameReceived := rfl
@[simp] theorem setSlot_buf (i : Nat) (v : Byte) : (s.setSlot i v).buf = memSet s.buf i v := rfl
@[simp] theorem setSlot_resetSeen (i : Nat) (v : Byte) : (s.setSlot i v).resetSeen = s.resetSeen := rfl
@[simp] theorem setSlot_inputs (i : Nat) (v : Byte) : (s.setSlot i v).inputs = s.inputs := rfl
@[simp] theorem setSlot_rsp (i : Nat) (v : Byte) : (s.setSlot i v).rsp = s.rsp := rfl

/-! ### `State.setCompleted` -/

@[simp] theorem setCompleted_syncState (m : Millis) : (s.setCompleted m).syncState = s.syncState := rfl
@[simp] theorem setCompleted_chanCnt (m : Millis) : (s.setCompleted m).chanCnt = s.chanCnt := rfl
@[simp] theorem setCompleted_lastByteUs (m : Millis) : (s.setCompleted m).lastByteUs = s.lastByteUs := rfl
@[simp] theorem setCompleted_lastFrameMs (m : Millis) : (s.setCompleted m).lastFrameMs = m := rfl
@[simp] theorem setCompleted_frameReceived (m : Millis) : (s.setCompleted m).frameReceived = true := rfl
@[simp] theorem setCompleted_buf (m : Millis) : (s.setCompleted m).buf = s.buf := rfl
@[simp] theorem setCompleted_resetSeen (m : Millis) : (s.setCompleted m).resetSeen = s.resetSeen := rfl
@[simp] theorem setCompleted_inputs (m : Millis) : (s.setCompleted m).inputs = s.inputs := rfl
@[simp] theorem setCompleted_rsp (m : Millis) : (s.setCompleted m).rsp = s.rsp := rfl

/-! ### `State.clearReceived` -/

@[simp] theorem clearReceived_syncState : s.clearReceived.syncState = s.syncState := rfl
@[simp] theorem clearReceived_chanCnt : s.clearReceived.chanCnt = s.chanCnt := rfl
@[simp] theorem clearReceived_lastByteUs : s.clearReceived.lastByteUs = s.lastByteUs := rfl
@[simp] theorem clearReceived_lastFrameMs : s.clearReceived.lastFrameMs = s.lastFrameMs := rfl
@[simp] theorem clearReceived_frameReceived : s.clearReceived.frameReceived = false := rfl
@[simp] theorem clearReceived_buf : s.clearReceived.buf = s.buf := rfl
@[simp] theorem clearReceived_resetSeen : s.clearReceived.resetSeen = s.resetSeen := rfl
@[simp] theorem clearReceived_inputs : s.clearReceived.inputs = s.inputs := rfl
@[simp] theorem clearReceived_rsp : s.clearReceived.rsp = s.rsp := rfl

/-! ### `State.respond` -/

@[simp] theorem respond_syncState (f : Bool) (v : Byte) : (s.respond f v).syncState = s.syncState := rfl
@[simp] theorem respond_chanCnt (f : Bool) (v : Byte) : (s.respond f v).chanCnt = s.chanCnt := rfl
@[simp] theorem respond_lastByteUs (f : Bool) (v : Byte) : (s.respond f v).lastByteUs = s.lastByteUs := rfl
@[simp] theorem respond_lastFrameMs (f : Bool) (v : Byte) : (s.respond f v).lastFrameMs = s.lastFrameMs := rfl
@[simp] theorem respond_frameReceived (f : Bool) (v : Byte) : (s.respond f v).frameReceived = s.frameReceived := rfl
@[simp] theorem respond_buf (f : Bool) (v : Byte) : (s.respond f v).buf = s.buf := rfl
@[simp] theorem respond_resetSeen (f : Bool) (v : Byte) : (s.respond f v).resetSeen = s.resetSeen := rfl
@[simp] theorem respond_inputs (f : Bool) (v : Byte) : (s.respond f v).inputs = s.inputs := rfl
@[simp] theorem respond_rsp (f : Bool) (v : Byte) : (s.respond f v).rsp = some (rspWord false f v) := rfl

/-! ### `State.respondIllegal` -/

@[simp] theorem respondIllegal_syncState : s.respondIllegal.syncState = s.syncState := rfl
@[simp] theorem respondIllegal_chanCnt : s.respondIllegal.chanCnt = s.chanCnt := rfl
@[simp] theorem respondIllegal_lastByteUs : s.respondIllegal.lastByteUs = s.lastByteUs := rfl
@[simp] theorem respondIllegal_lastFrameMs : s.respondIllegal.lastFrameMs = s.lastFrameMs := rfl
@[simp] theorem respondIllegal_frameReceived : s.respondIllegal.frameReceived = s.frameReceived := rfl
@[simp] theorem respondIllegal_buf : s.respondIllegal.buf = s.buf := rfl
@[simp] theorem respondIllegal_resetSeen : s.respondIllegal.resetSeen = s.resetSeen := rfl
@[simp] theorem respondIllegal_inputs : s.respondIllegal.inputs = s.inputs := rfl
@[simp] theorem respondIllegal_rsp : s.respondIllegal.rsp = some (rspWord true false 0#8) := rfl

/-! ### `State.noResponse` -/

@[simp] theorem noResponse_syncState : s.noResponse.syncState = s.syncState := rfl
@[simp] theorem noResponse_chanCnt : s.noResponse.chanCnt = s.chanCnt := rfl
@[simp] theorem noResponse_lastByteUs : s.noResponse.lastByteUs = s.lastByteUs := rfl
@[simp] theorem noResponse_lastFrameMs : s.noResponse.lastFrameMs = s.lastFrameMs := rfl
@[simp] theorem noResponse_frameReceived : s.noResponse.frameReceived = s.frameReceived := rfl
@[simp] theorem noResponse_buf : s.noResponse.buf = s.buf := rfl
@[simp] theorem noResponse_resetSeen : s.noResponse.resetSeen = s.resetSeen := rfl
@[simp] theorem noResponse_inputs : s.noResponse.inputs = s.inputs := rfl
@[simp] theorem noResponse_rsp : s.noResponse.rsp = none := rfl

/-! ### `State.setInputs` -/

@[simp] theorem setInputs_syncState (q : List PortInput) : (s.setInputs q).syncState = s.syncState := rfl
@[simp] theorem setInputs_chanCnt (q : List PortInput) : (s.setInputs q).chanCnt = s.chanCnt := rfl
@[simp] theorem setInputs_lastByteUs (q : List PortInput) : (s.setInputs q).lastByteUs = s.lastByteUs := rfl
@[simp] theorem setInputs_lastFrameMs (q : List PortInput) : (s.setInputs q).lastFrameMs = s.lastFrameMs := rfl
@[simp] theorem setInputs_frameReceived (q : List PortInput) : (s.setInputs q).frameReceived = s.frameReceived := rfl
@[simp] theorem setInputs_buf (q : List PortInput) : (s.setInputs q).buf = s.buf := rfl
@[simp] theorem setInputs_resetSeen (q : List PortInput) : (s.setInputs q).resetSeen = s.resetSeen := rfl
@[simp] theorem setInputs_inputs (q : List PortInput) : (s.setInputs q).inputs = q := rfl
@[simp] theorem setInputs_rsp (q : List PortInput) : (s.setInputs q).rsp = s.rsp := rfl

/-! ### `resetBlock` -/

@[simp] theorem resetBlock_syncState : (resetBlock s).syncState = .awaitingBreak := rfl
@[simp] theorem resetBlock_chanCnt : (resetBlock s).chanCnt = 0#10 := rfl
@[simp] theorem resetBlock_lastByteUs : (resetBlock s).lastByteUs = 0#32 := rfl
@[simp] theorem resetBlock_lastFrameMs : (resetBlock s).lastFrameMs = 0#32 := rfl
@[simp] theorem resetBlock_frameReceived : (resetBlock s).frameReceived = false := rfl
@[simp] theorem resetBlock_buf : (resetBlock s).buf = [] := rfl
@[simp] theorem resetBlock_resetSeen : (resetBlock s).resetSeen = true := rfl
@[simp] theorem resetBlock_inputs : (resetBlock s).inputs = s.inputs := rfl
@[simp] theorem resetBlock_rsp : (resetBlock s).rsp = s.rsp := rfl

/-! ### What stands in for trap entry, as updates -/

@[simp] theorem restartFrame_eq : restartFrame s = s.setPosition .receiving 0#10 := rfl
@[simp] theorem abandonFrame_eq : abandonFrame s = s.setPosition .awaitingBreak 0#10 := rfl
@[simp] theorem declareLoss_eq : declareLoss s = s.clearReceived := rfl
@[simp] theorem completeFrame_eq (m : Millis) :
    completeFrame s m = (s.setCompleted m).setPosition .awaitingBreak 0#10 := rfl

/-- `positionHasMeaning` reads the position only. -/
theorem positionHasMeaning_congr {s t : State} (hy : t.syncState = s.syncState) (hc : t.chanCnt = s.chanCnt) :
    t.positionHasMeaning = s.positionHasMeaning := by
  simp [State.positionHasMeaning, hy, hc]

end Sys2Proof.Machine
end

