-- ==== Sys2Proof/Laws/Memory.lean ====
section
/-! SUPPORT. The frame buffer: a read after a write gives the value written, a write leaves every other slot alone, and
every write keeps the canonical form (R56). -/

namespace Sys2Proof.Machine

@[simp] theorem memGet_nil (a : Nat) : memGet [] a = 0#8 := rfl

theorem memGet_memErase (m : Memory) (a b : Nat) :
    memGet (memErase m a) b = if b = a then 0#8 else memGet m b := by
  induction m with
  | nil => simp [memErase]
  | cons c m ih =>
    obtain ⟨x, v⟩ := c
    by_cases hxa : x = a
    · rw [memErase, if_pos hxa, ih]
      by_cases hba : b = a
      · simp [hba]
      · simp [memGet, hxa, hba, Ne.symm hba]
    · by_cases hxb : x = b
      · have : b ≠ a := fun h => hxa (hxb.trans h)
        simp [memErase, memGet, hxb, this]
      · simp [memErase, memGet, hxa, hxb, ih]

theorem memGet_memInsert (m : Memory) (a b : Nat) (v : Byte) (h : memGet m a = 0#8) (hv : ∀ c ∈ m, c.1 ≠ a) :
    memGet (memInsert m a v) b = if b = a then v else memGet m b := by
  induction m with
  | nil =>
    by_cases hba : a = b
    · simp [memInsert, memGet, hba]
    · simp [memInsert, memGet, hba, Ne.symm hba]
  | cons c m ih =>
    obtain ⟨x, w⟩ := c
    have hxa : x ≠ a := hv (x, w) (by simp)
    have ih' := ih (by simpa [memGet, hxa] using h) (fun c hc => hv c (by simp [hc]))
    by_cases hlt : a < x
    · by_cases hba : b = a
      · simp [memInsert, memGet, hlt, hba]
      · simp [memInsert, memGet, hlt, hba, Ne.symm hba]
    · by_cases hxb : x = b
      · subst hxb
        simp [memInsert, memGet, hlt, hxa]
      · simp [memInsert, memGet, hlt, hxb, ih']

theorem memErase_addr_ne (m : Memory) (a : Nat) : ∀ c ∈ memErase m a, c.1 ≠ a := by
  induction m with
  | nil => simp [memErase]
  | cons c m ih =>
    obtain ⟨x, v⟩ := c
    by_cases hxa : x = a
    · simpa [memErase, hxa] using ih
    · simpa [memErase, hxa] using ih

/-- Read after write, for every buffer and every slot (R56). -/
theorem memGet_memSet (m : Memory) (a b : Nat) (v : Byte) :
    memGet (memSet m a v) b = if b = a then v else memGet m b := by
  unfold memSet
  split
  · next h => rw [memGet_memErase, h]
  · rw [memGet_memInsert _ _ _ _ (by simp [memGet_memErase]) (memErase_addr_ne m a), memGet_memErase]
    split <;> simp_all

@[simp] theorem memGet_memSet_same (m : Memory) (a : Nat) (v : Byte) : memGet (memSet m a v) a = v := by
  simp [memGet_memSet]

theorem memGet_memSet_other (m : Memory) {a b : Nat} (v : Byte) (h : b ≠ a) :
    memGet (memSet m a v) b = memGet m b := by
  simp [memGet_memSet, h]

/-! ### The canonical form -/

theorem memWfFrom_mono {m : Memory} {lo hi : Nat} (hle : lo ≤ hi) (h : memWfFrom hi m = true) :
    memWfFrom lo m = true := by
  cases m with
  | nil => rfl
  | cons c m =>
    obtain ⟨x, v⟩ := c
    simp only [memWfFrom, Bool.and_eq_true, decide_eq_true_eq] at h ⊢
    exact ⟨⟨⟨le_trans hle h.1.1.1, h.1.1.2⟩, h.1.2⟩, h.2⟩

theorem memWfFrom_memErase {m : Memory} (lo a : Nat) (h : memWfFrom lo m = true) :
    memWfFrom lo (memErase m a) = true := by
  induction m generalizing lo with
  | nil => rfl
  | cons c m ih =>
    obtain ⟨x, v⟩ := c
    simp only [memWfFrom, Bool.and_eq_true, decide_eq_true_eq] at h
    by_cases hxa : x = a
    · simpa [memErase, hxa] using ih lo (memWfFrom_mono (by omega) h.2)
    · simp [memErase, hxa, memWfFrom, h.1, ih _ h.2]

theorem memWfFrom_memInsert {m : Memory} {lo a : Nat} {v : Byte} (h : memWfFrom lo m = true)
    (hlo : lo ≤ a) (ha : a < Config.nslots) (hv : v ≠ 0#8) (hne : ∀ c ∈ m, c.1 ≠ a) :
    memWfFrom lo (memInsert m a v) = true := by
  induction m generalizing lo with
  | nil => simp [memInsert, memWfFrom, hlo, ha, Config.slotReset, hv]
  | cons c m ih =>
    obtain ⟨x, w⟩ := c
    have hxa : x ≠ a := hne (x, w) (by simp)
    simp only [memWfFrom, Bool.and_eq_true, decide_eq_true_eq] at h
    by_cases hlt : a < x
    · simp [memInsert, hlt, memWfFrom, hlo, ha, Config.slotReset, hv, Nat.succ_le_of_lt hlt, h.1.1.2, h.2]
      simpa [Config.slotReset] using h.1.2
    · have := ih h.2 (by omega) (fun c hc => hne c (by simp [hc]))
      simp [memInsert, hlt, memWfFrom, h.1, this]

/-- A write keeps the canonical form. -/
theorem memSet_wf {m : Memory} {a : Nat} (v : Byte) (h : m.wf = true) (ha : a < Config.nslots) :
    (memSet m a v).wf = true := by
  unfold memSet
  split
  · exact memWfFrom_memErase 0 a h
  · next hv =>
    exact memWfFrom_memInsert (memWfFrom_memErase 0 a h) (Nat.zero_le a) ha hv (memErase_addr_ne m a)

/-- The empty list, the buffer after reset, is in canonical form. -/
@[simp] theorem nil_wf : Memory.wf [] = true := rfl

/-- A canonical buffer of which every slot reads `0x00` is the empty list: equal buffers are equal lists there. -/
theorem wf_zero_eq_nil {m : Memory} (h : m.wf = true) (hz : ∀ a, a < Config.nslots → memGet m a = 0#8) : m = [] := by
  cases m with
  | nil => rfl
  | cons c m =>
    obtain ⟨x, v⟩ := c
    simp only [Memory.wf, memWfFrom, Bool.and_eq_true, decide_eq_true_eq] at h
    have h0 := hz x h.1.1.2
    simp [memGet] at h0
    simp [h0, Config.slotReset] at h

/-! ### INIT's loop (R160) -/

theorem memGet_foldl_zero (l : List Nat) (m : Memory) (a : Nat) :
    memGet (l.foldl (fun m i => memSet m i 0x00#8) m) a = if a ∈ l then 0x00#8 else memGet m a := by
  induction l generalizing m with
  | nil => simp
  | cons i l ih =>
    rw [List.foldl_cons, ih, memGet_memSet]
    by_cases hl : a ∈ l <;> by_cases hi : a = i <;> simp [hl, hi]

theorem foldl_zero_wf (l : List Nat) {m : Memory} (h : m.wf = true) (hl : ∀ i ∈ l, i < Config.nslots) :
    (l.foldl (fun m i => memSet m i 0x00#8) m).wf = true := by
  induction l generalizing m with
  | nil => exact h
  | cons i l ih =>
    rw [List.foldl_cons]
    exact ih (memSet_wf _ h (hl i (by simp))) (fun j hj => hl j (by simp [hj]))

/-- `for i in 0..512: MemWrite(i, 1, 0x00)` leaves the buffer that `resetBlock` names (R160). -/
theorem zeroing_loop_eq_reset {m : Memory} (h : m.wf = true) :
    allSlots.foldl (fun m i => memSet m i 0x00#8) m = State.reset.buf := by
  have hmem : ∀ i, i ∈ allSlots ↔ i < Config.nslots := by simp [allSlots]
  refine wf_zero_eq_nil (foldl_zero_wf _ h fun i hi => (hmem i).1 hi) fun a ha => ?_
  rw [memGet_foldl_zero, if_pos ((hmem a).2 ha)]

end Sys2Proof.Machine
end

