-- ==== Sys2Proof/Laws/Ops.lean ====
section
/-! SUPPORT. For each shared operation one lemma that says all it can do; the provers cite these instead of unfolding. -/

namespace Sys2Proof.Machine

/-! ### Comparators, operands and the response word -/

theorem showsBreak_gap_iff (t l : Micros) : showsBreak (gap t l) = true ↔ 88 < (t - l).toNat :=
  decide_eq_true_iff

theorem showsBreak_gap_false_iff (t l : Micros) : showsBreak (gap t l) = false ↔ (t - l).toNat ≤ 88 := by
  rw [← Bool.not_eq_true, showsBreak_gap_iff, Nat.not_lt]

theorem isLive_elapsed_iff (t l : Millis) : isLive (elapsed t l) = true ↔ (t - l).toNat < 2000 :=
  decide_eq_true_iff

theorem isStale_elapsed_iff (t l : Millis) : isStale (elapsed t l) = true ↔ 5000 < (t - l).toNat :=
  decide_eq_true_iff

theorem channelInRange_iff (n : ChanNum) : channelInRange n = true ↔ 1 ≤ n.toNat ∧ n.toNat ≤ 512 := by
  simp [channelInRange, Config.nchan]

@[simp] theorem rspWord_flag_false : rspWord false false 0#8 = 0x000#10 := by decide

@[simp] theorem rspWord_flag_true : rspWord false true 0#8 = 0x100#10 := by decide

@[simp] theorem rspWord_illegal : rspWord true false 0#8 = 0x200#10 := by decide

theorem rspWord_val (v : Byte) : rspWord false false v = 0#2 ++ v := by
  simp [rspWord]

theorem rspWord_val_toNat (v : Byte) : (rspWord false false v).toNat = v.toNat := by
  have h : (rspWord false false v).toNat = (0#1 ++ 0#1 ++ v).toNat := rfl
  rw [h, BitVec.toNat_append]
  simp

/-- Where `chan_cnt` stands for a number below 1024, the slot it addresses is that number. -/
theorem slotOfCount_ofNat {k : Nat} (h : k < 1024) : slotOfCount (BitVec.ofNat 10 k) = k := by
  simp [slotOfCount, Nat.mod_eq_of_lt h]

/-- The post-increment past the last slot, for a count of at most 512 (R109). -/
theorem countPastLast_nextCount {c : Count} (h : c.toNat ≤ 512) :
    countPastLast (nextCount c) = true ↔ c = 512#10 := by
  rw [countPastLast, nextCount, decide_eq_true_iff]
  constructor
  · intro h'
    apply BitVec.eq_of_toNat_eq
    simp [Config.nchan, Nat.mod_eq_of_lt (show c.toNat + 1 < 1024 by omega)] at h' ⊢
    omega
  · rintro rfl
    decide

/-! ### The buffer primitives -/

/-- What `MemRead` can do (R56). -/
theorem memRead_spec (s : State) (i : Nat) :
    (i < Config.nslots ∧ memRead s i = .ok (memGet s.buf i)) ∨
    (Config.nslots ≤ i ∧ memRead s i = .error (.noSuchSlot i)) := by
  unfold memRead
  split
  · next h => exact .inl ⟨h, rfl⟩
  · next h => exact .inr ⟨Nat.le_of_not_lt h, rfl⟩

/-- What `MemWrite` can do (R56). -/
theorem memWrite_spec (s : State) (i : Nat) (v : Byte) :
    (i < Config.nslots ∧ memWrite s i v = .ok (s.setSlot i v)) ∨
    (Config.nslots ≤ i ∧ memWrite s i v = .error (.noSuchSlot i)) := by
  unfold memWrite
  split
  · next h => exact .inl ⟨h, rfl⟩
  · next h => exact .inr ⟨Nat.le_of_not_lt h, rfl⟩

theorem memRead_ok (s : State) {i : Nat} (h : i < Config.nslots) : memRead s i = .ok (memGet s.buf i) := if_pos h

theorem memWrite_ok (s : State) {i : Nat} (v : Byte) (h : i < Config.nslots) :
    memWrite s i v = .ok (s.setSlot i v) := if_pos h

/-! ### Where the spec gives a meaning -/

/-- What an operation guarded by the two refusals can do. -/
theorem whenMeaning_next_iff (s t : State) (k : Host.Outcome State Fault Refusal) :
    whenMeaning s k = .next t ↔ (s.resetSeen = true ∧ s.positionHasMeaning = true) ∧ k = .next t := by
  unfold whenMeaning
  split <;> (try split) <;> simp [*]

theorem whenMeaning_of {s : State} (k : Host.Outcome State Fault Refusal) (hr : s.resetSeen = true)
    (hm : s.positionHasMeaning = true) : whenMeaning s k = k := by
  rw [whenMeaning, if_pos hr, if_pos hm]

/-- The refusal before the first reset. -/
theorem whenMeaning_beforeFirstReset {s : State} (k : Host.Outcome State Fault Refusal) (hr : s.resetSeen = false) :
    whenMeaning s k = .refused .beforeFirstReset := by
  simp [whenMeaning, hr]

/-- The refusal at a position without a meaning. -/
theorem whenMeaning_positionWithoutMeaning {s : State} (k : Host.Outcome State Fault Refusal) (hr : s.resetSeen = true)
    (hm : s.positionHasMeaning = false) :
    whenMeaning s k = .refused (.positionWithoutMeaning s.syncState s.chanCnt) := by
  simp [whenMeaning, hr, hm]

theorem positionHasMeaning_iff (s : State) :
    s.positionHasMeaning = true ↔
      (s.syncState = .awaitingBreak ∧ s.chanCnt = 0#10) ∨ (s.syncState = .receiving ∧ s.chanCnt.toNat ≤ 512) := by
  cases h : s.syncState <;> simp [State.positionHasMeaning, h, Config.nchan]

/-- In `Receiving`, a position with a meaning has a count of at most 512. -/
theorem chanCnt_le_of_meaning {s : State} (hm : s.positionHasMeaning = true) (hr : s.syncState = .receiving) :
    s.chanCnt.toNat ≤ 512 := by
  rcases (positionHasMeaning_iff s).1 hm with h | h
  · simp [hr] at h
  · exact h.2

/-! ### BYTE, path by path (R100, R112) -/

section
variable (tUs : Micros) (tMs : Millis) (data : Byte) {s : State}

/-- The byte is taken as a start-code candidate: it shows a break, or the position is `(Receiving, 0)`. -/
abbrev isCandidate (tUs : Micros) (s : State) : Prop :=
  showsBreak (gap tUs s.lastByteUs) = true ∨ (s.syncState = .receiving ∧ s.chanCnt = 0#10)

theorem byteStep_candidate (h : isCandidate tUs s) :
    byteStep tUs tMs data s = if data = 0x00#8 then
      .ok ((((s.setLastByteUs tUs).setSlot 0 data).setPosition .receiving 1#10), false)
    else .ok ((s.setLastByteUs tUs).setPosition .awaitingBreak 0#10, false) := by
  have key : ∀ t : State, t.syncState = .receiving → t.chanCnt = 0#10 → classify tMs data t = startCode data t := by
    intro t hy hc
    simp [classify, hy, hc]
  have hw : ∀ t : State, startCode data t = if data = 0x00#8 then
      .ok ((t.setSlot 0 data).setPosition .receiving 1#10, false) else .ok (t.setPosition .awaitingBreak 0#10, false) := by
    intro t
    simp [startCode, Config.scNull, memWrite_ok t data (i := 0) (by decide)]
  unfold byteStep breakTest
  cases hb : showsBreak (gap tUs s.lastByteUs) with
  | true =>
    rw [if_pos rfl, key _ rfl rfl, hw]
    split <;> rfl
  | false =>
    obtain ⟨hy, hc⟩ := h.resolve_left (by simp [hb])
    rw [if_neg (by simp), key _ (by simpa using hy) (by simpa using hc), hw]

theorem byteStep_discard (hb : showsBreak (gap tUs s.lastByteUs) = false) (hy : s.syncState = .awaitingBreak) :
    byteStep tUs tMs data s = .ok (s.setLastByteUs tUs, false) := by
  simp [byteStep, breakTest, hb, classify, hy]

/-- A channel byte, stored at slot `chan_cnt`; completion at slot 512. -/
theorem byteStep_channel (hb : showsBreak (gap tUs s.lastByteUs) = false) (hy : s.syncState = .receiving)
    (hc : s.chanCnt ≠ 0#10) (hle : s.chanCnt.toNat ≤ 512) :
    byteStep tUs tMs data s = if s.chanCnt = 512#10 then
      .ok (completeFrame ((s.setLastByteUs tUs).setSlot s.chanCnt.toNat data) tMs, true)
    else .ok (((s.setLastByteUs tUs).setSlot s.chanCnt.toNat data).setPosition .receiving (s.chanCnt + 1#10), false) := by
  have hw := memWrite_ok (s.setLastByteUs tUs) data (i := s.chanCnt.toNat) (by simp [Config.nslots]; omega)
  have hp := countPastLast_nextCount hle
  simp only [byteStep, breakTest, hb, classify, setLastByteUs_syncState, setLastByteUs_chanCnt, hy, hc, channelByte,
    slotOfCount, hw, advance, setSlot_chanCnt, Bool.false_eq_true, if_false, hp]
  split <;> rfl

/-- All that a BYTE can do (R112): it starts a frame, is rejected as a start code, is discarded, stores a channel, or
completes a frame. -/
theorem execByte_next_cases {t : State} (h : execByte tUs tMs data s = .next t) :
    s.resetSeen = true ∧ s.positionHasMeaning = true ∧
    ((isCandidate tUs s ∧ data = 0x00#8 ∧
        t = (((s.setLastByteUs tUs).setSlot 0 data).setPosition .receiving 1#10).respond false 0#8) ∨
     (isCandidate tUs s ∧ data ≠ 0x00#8 ∧
        t = ((s.setLastByteUs tUs).setPosition .awaitingBreak 0#10).respond false 0#8) ∨
     (showsBreak (gap tUs s.lastByteUs) = false ∧ s.syncState = .awaitingBreak ∧
        t = (s.setLastByteUs tUs).respond false 0#8) ∨
     (showsBreak (gap tUs s.lastByteUs) = false ∧ s.syncState = .receiving ∧ s.chanCnt ≠ 0#10 ∧ s.chanCnt.toNat < 512 ∧
        t = (((s.setLastByteUs tUs).setSlot s.chanCnt.toNat data).setPosition .receiving (s.chanCnt + 1#10)).respond
          false 0#8) ∨
     (showsBreak (gap tUs s.lastByteUs) = false ∧ s.syncState = .receiving ∧ s.chanCnt = 512#10 ∧
        t = (completeFrame ((s.setLastByteUs tUs).setSlot 512 data) tMs).respond true 0#8)) := by
  unfold execByte at h
  obtain ⟨⟨hr, hm⟩, h⟩ := (whenMeaning_next_iff _ _ _).1 h
  refine ⟨hr, hm, ?_⟩
  by_cases hcand : isCandidate tUs s
  · rw [byteStep_candidate tUs tMs data hcand] at h
    by_cases hd : data = 0x00#8
    · rw [if_pos hd] at h
      exact .inl ⟨hcand, hd, (Host.Outcome.next.inj h).symm⟩
    · rw [if_neg hd] at h
      exact .inr (.inl ⟨hcand, hd, (Host.Outcome.next.inj h).symm⟩)
  · have hb : showsBreak (gap tUs s.lastByteUs) = false := by simpa using fun hb => hcand (.inl hb)
    rcases hy : s.syncState with _ | _
    · rw [byteStep_discard tUs tMs data hb hy] at h
      exact .inr (.inr (.inl ⟨hb, rfl, (Host.Outcome.next.inj h).symm⟩))
    · have hc : s.chanCnt ≠ 0#10 := fun hc => hcand (.inr ⟨hy, hc⟩)
      have hle := chanCnt_le_of_meaning hm hy
      rw [byteStep_channel tUs tMs data hb hy hc hle] at h
      by_cases h512 : s.chanCnt = 512#10
      · rw [if_pos h512] at h
        rw [h512] at h
        exact .inr (.inr (.inr (.inr ⟨hb, rfl, h512, (Host.Outcome.next.inj h).symm⟩)))
      · rw [if_neg h512] at h
        have hlt : s.chanCnt.toNat < 512 := by
          have : s.chanCnt.toNat ≠ 512 := fun h' => h512 (BitVec.eq_of_toNat_eq (by simpa using h'))
          omega
        exact .inr (.inr (.inr (.inl ⟨hb, rfl, hc, hlt, (Host.Outcome.next.inj h).symm⟩)))

/-- A BYTE takes one of the five paths exactly where the path's conditions hold (R112): the way from conditions to the
next state, and back. -/
theorem execByte_next_iff (s t : State) :
    execByte tUs tMs data s = .next t ↔ s.resetSeen = true ∧ s.positionHasMeaning = true ∧
    ((isCandidate tUs s ∧ data = 0x00#8 ∧
        t = (((s.setLastByteUs tUs).setSlot 0 data).setPosition .receiving 1#10).respond false 0#8) ∨
     (isCandidate tUs s ∧ data ≠ 0x00#8 ∧
        t = ((s.setLastByteUs tUs).setPosition .awaitingBreak 0#10).respond false 0#8) ∨
     (showsBreak (gap tUs s.lastByteUs) = false ∧ s.syncState = .awaitingBreak ∧
        t = (s.setLastByteUs tUs).respond false 0#8) ∨
     (showsBreak (gap tUs s.lastByteUs) = false ∧ s.syncState = .receiving ∧ s.chanCnt ≠ 0#10 ∧ s.chanCnt.toNat < 512 ∧
        t = (((s.setLastByteUs tUs).setSlot s.chanCnt.toNat data).setPosition .receiving (s.chanCnt + 1#10)).respond
          false 0#8) ∨
     (showsBreak (gap tUs s.lastByteUs) = false ∧ s.syncState = .receiving ∧ s.chanCnt = 512#10 ∧
        t = (completeFrame ((s.setLastByteUs tUs).setSlot 512 data) tMs).respond true 0#8)) := by
  refine ⟨execByte_next_cases tUs tMs data, ?_⟩
  rintro ⟨hr, hm, h⟩
  unfold execByte
  rw [whenMeaning_of _ hr hm]
  obtain ⟨hc, hd, rfl⟩ | ⟨hc, hd, rfl⟩ | ⟨hb, hy, rfl⟩ | ⟨hb, hy, hc, hlt, rfl⟩ | ⟨hb, hy, hc, rfl⟩ := h
  · rw [byteStep_candidate tUs tMs data hc, if_pos hd]
    rfl
  · rw [byteStep_candidate tUs tMs data hc, if_neg hd]
    rfl
  · rw [byteStep_discard tUs tMs data hb hy]
    rfl
  · have h512 : s.chanCnt ≠ 512#10 := fun h => by simp [h] at hlt
    rw [byteStep_channel tUs tMs data hb hy hc (by omega), if_neg h512]
    rfl
  · have h0 : s.chanCnt ≠ 0#10 := by rw [hc]; decide
    rw [byteStep_channel tUs tMs data hb hy h0 (by rw [hc]; decide), if_pos hc, hc]
    rfl

/-- At a position with a meaning, after reset, BYTE takes a next state. -/
theorem execByte_answers (hr : s.resetSeen = true) (hm : s.positionHasMeaning = true) :
    ∃ t, execByte tUs tMs data s = .next t := by
  unfold execByte
  rw [whenMeaning_of _ hr hm]
  by_cases hcand : isCandidate tUs s
  · rw [byteStep_candidate tUs tMs data hcand]
    split <;> exact ⟨_, rfl⟩
  · have hb : showsBreak (gap tUs s.lastByteUs) = false := by simpa using fun hb => hcand (.inl hb)
    rcases hy : s.syncState with _ | _
    · rw [byteStep_discard tUs tMs data hb hy]
      exact ⟨_, rfl⟩
    · rw [byteStep_channel tUs tMs data hb hy (fun hc => hcand (.inr ⟨hy, hc⟩)) (chanCnt_le_of_meaning hm hy)]
      split <;> exact ⟨_, rfl⟩

end

/-! ### The other operations: all they can do -/

theorem execRead_next_iff (n : ChanNum) (s t : State) :
    execRead n s = .next t ↔ (s.resetSeen = true ∧ s.positionHasMeaning = true) ∧ t = s.respond false
      (if s.frameReceived = true ∧ channelInRange n = true then memGet s.buf n.toNat else 0x00#8) := by
  unfold execRead
  rw [whenMeaning_next_iff]
  refine and_congr_right fun _ => ?_
  by_cases h : s.frameReceived = true ∧ channelInRange n = true
  · have hn := (channelInRange_iff n).1 h.2
    rw [if_pos h, if_pos (by simp [h]), slotOfChannel, memRead_ok s (by simp [Config.nslots]; omega)]
    simp [answerRead, eq_comm]
  · rw [if_neg h, if_neg (by simpa using h)]
    simp [Config.defaultVal, eq_comm]

theorem execConn_next_iff (tMs : Millis) (s t : State) :
    execConn tMs s = .next t ↔ (s.resetSeen = true ∧ s.positionHasMeaning = true) ∧
      t = s.respond (s.frameReceived && isLive (elapsed tMs s.lastFrameMs)) 0#8 := by
  rw [execConn, whenMeaning_next_iff, Host.Outcome.next.injEq, eq_comm (a := t)]

theorem execPoll_next_iff (tMs : Millis) (s t : State) :
    execPoll tMs s = .next t ↔ (s.resetSeen = true ∧ s.positionHasMeaning = true) ∧
      ((s.frameReceived = true ∧ isStale (elapsed tMs s.lastFrameMs) = true ∧ t = s.clearReceived.respond true 0#8) ∨
       ((s.frameReceived && isStale (elapsed tMs s.lastFrameMs)) = false ∧ t = s.respond false 0#8)) := by
  unfold execPoll
  rw [whenMeaning_next_iff]
  refine and_congr_right fun _ => ?_
  cases hf : s.frameReceived <;> cases he : isStale (elapsed tMs s.lastFrameMs) <;> simp [eq_comm]

theorem execFlag_next_iff (s t : State) :
    execFlag s = .next t ↔ (s.resetSeen = true ∧ s.positionHasMeaning = true) ∧ t = s.respond s.frameReceived 0#8 := by
  rw [execFlag, whenMeaning_next_iff, Host.Outcome.next.injEq, eq_comm (a := t)]

theorem execInit_next_iff (s t : State) : execInit s = .next t ↔ t = (resetBlock s).respond false 0#8 := by
  simp [execInit, eq_comm]

end Sys2Proof.Machine
end

