-- ==== Sys2Proof/Laws/Exec.lean ====
section
/-! SUPPORT. What one operation and one run can do: inversion of `exec` over the six operations, and the algebra of
`runOps`. -/

namespace Sys2Proof.Machine

open Sys2Proof.Safety

/-- All that an operation can do: BYTE (see `execByte_next_cases`), INIT, a response only, or a POLL that clears the flag. -/
theorem exec_next_cases {i : Instr} {s t : State} (h : exec i s = .next t) :
    (∃ u m d, i = .byte u m d ∧ execByte u m d s = .next t) ∨
    (i = .init ∧ t = (resetBlock s).respond false 0#8) ∨
    ((s.resetSeen = true ∧ s.positionHasMeaning = true) ∧ writesSynchronizer i = false ∧
      ((∃ f v, t = s.respond f v) ∨
       (∃ m, i = .poll m ∧ s.frameReceived = true ∧ t = s.clearReceived.respond true 0#8))) := by
  cases i with
  | byte u m d => exact .inl ⟨u, m, d, rfl, h⟩
  | read n =>
    obtain ⟨hr, rfl⟩ := (execRead_next_iff n s t).1 h
    exact .inr (.inr ⟨hr, rfl, .inl ⟨_, _, rfl⟩⟩)
  | conn m =>
    obtain ⟨hr, rfl⟩ := (execConn_next_iff m s t).1 h
    exact .inr (.inr ⟨hr, rfl, .inl ⟨_, _, rfl⟩⟩)
  | poll m =>
    obtain ⟨hr, ⟨hf, _, rfl⟩ | ⟨_, rfl⟩⟩ := (execPoll_next_iff m s t).1 h
    · exact .inr (.inr ⟨hr, rfl, .inr ⟨m, rfl, hf, rfl⟩⟩)
    · exact .inr (.inr ⟨hr, rfl, .inl ⟨_, _, rfl⟩⟩)
  | flag =>
    obtain ⟨hr, rfl⟩ := (execFlag_next_iff s t).1 h
    exact .inr (.inr ⟨hr, rfl, .inl ⟨_, _, rfl⟩⟩)
  | init => exact .inr (.inl ⟨rfl, (execInit_next_iff s t).1 h⟩)

/-- Every next state carries a response (R13). -/
theorem exec_next_rsp {i : Instr} {s t : State} (h : exec i s = .next t) : ∃ r, t.rsp = some r := by
  obtain ⟨u, m, d, rfl, h⟩ | ⟨rfl, rfl⟩ | ⟨_, _, ⟨f, v, rfl⟩ | ⟨m, rfl, _, rfl⟩⟩ := exec_next_cases h
  · obtain ⟨_, _, ⟨_, _, rfl⟩ | ⟨_, _, rfl⟩ | ⟨_, _, rfl⟩ | ⟨_, _, _, _, rfl⟩ | ⟨_, _, _, rfl⟩⟩ :=
      execByte_next_cases _ _ _ h <;> exact ⟨_, rfl⟩
  all_goals exact ⟨_, rfl⟩

/-- What the host presents at the port has no part in an operation. -/
theorem exec_setInputs {i : Instr} {s t : State} (q : List PortInput) (h : exec i s = .next t) :
    exec i (s.setInputs q) = .next (t.setInputs q) := by
  cases i with
  | byte u m d =>
    obtain ⟨hr, hm, h⟩ := execByte_next_cases u m d h
    refine (execByte_next_iff u m d _ _).2 ⟨hr, hm, ?_⟩
    obtain ⟨hc, hd, rfl⟩ | ⟨hc, hd, rfl⟩ | ⟨hb, hy, rfl⟩ | ⟨hb, hy, hc, hlt, rfl⟩ | ⟨hb, hy, hc, rfl⟩ := h
    · exact .inl ⟨hc, hd, rfl⟩
    · exact .inr (.inl ⟨hc, hd, rfl⟩)
    · exact .inr (.inr (.inl ⟨hb, hy, rfl⟩))
    · exact .inr (.inr (.inr (.inl ⟨hb, hy, hc, hlt, rfl⟩)))
    · exact .inr (.inr (.inr (.inr ⟨hb, hy, hc, rfl⟩)))
  | read n =>
    obtain ⟨hr, rfl⟩ := (execRead_next_iff n s t).1 h
    exact (execRead_next_iff n _ _).2 ⟨hr, rfl⟩
  | conn m =>
    obtain ⟨hr, rfl⟩ := (execConn_next_iff m s t).1 h
    exact (execConn_next_iff m _ _).2 ⟨hr, rfl⟩
  | poll m =>
    obtain ⟨hr, ⟨hf, hs, rfl⟩ | ⟨hf, rfl⟩⟩ := (execPoll_next_iff m s t).1 h
    · exact (execPoll_next_iff m _ _).2 ⟨hr, .inl ⟨hf, hs, rfl⟩⟩
    · exact (execPoll_next_iff m _ _).2 ⟨hr, .inr ⟨hf, rfl⟩⟩
  | flag =>
    obtain ⟨hr, rfl⟩ := (execFlag_next_iff s t).1 h
    exact (execFlag_next_iff _ _).2 ⟨hr, rfl⟩
  | init =>
    rw [(execInit_next_iff s t).1 h]
    rfl

/-- The response of the step before has no part in an operation (R29). -/
theorem exec_noResponse {i : Instr} {s t : State} (x : Option RspWord) (h : exec i s = .next t) :
    exec i { s with rsp := x } = .next t := by
  cases i with
  | byte u m d =>
    obtain ⟨hr, hm, h⟩ := execByte_next_cases u m d h
    refine (execByte_next_iff u m d _ _).2 ⟨hr, hm, ?_⟩
    obtain ⟨hc, hd, rfl⟩ | ⟨hc, hd, rfl⟩ | ⟨hb, hy, rfl⟩ | ⟨hb, hy, hc, hlt, rfl⟩ | ⟨hb, hy, hc, rfl⟩ := h
    · exact .inl ⟨hc, hd, rfl⟩
    · exact .inr (.inl ⟨hc, hd, rfl⟩)
    · exact .inr (.inr (.inl ⟨hb, hy, rfl⟩))
    · exact .inr (.inr (.inr (.inl ⟨hb, hy, hc, hlt, rfl⟩)))
    · exact .inr (.inr (.inr (.inr ⟨hb, hy, hc, rfl⟩)))
  | read n =>
    obtain ⟨hr, rfl⟩ := (execRead_next_iff n s t).1 h
    exact (execRead_next_iff n _ _).2 ⟨hr, rfl⟩
  | conn m =>
    obtain ⟨hr, rfl⟩ := (execConn_next_iff m s t).1 h
    exact (execConn_next_iff m _ _).2 ⟨hr, rfl⟩
  | poll m =>
    obtain ⟨hr, ⟨hf, hs, rfl⟩ | ⟨hf, rfl⟩⟩ := (execPoll_next_iff m s t).1 h
    · exact (execPoll_next_iff m _ _).2 ⟨hr, .inl ⟨hf, hs, rfl⟩⟩
    · exact (execPoll_next_iff m _ _).2 ⟨hr, .inr ⟨hf, rfl⟩⟩
  | flag =>
    obtain ⟨hr, rfl⟩ := (execFlag_next_iff s t).1 h
    exact (execFlag_next_iff _ _).2 ⟨hr, rfl⟩
  | init => exact h

/-- A position reachable between steps has a meaning (R23). -/
theorem meaning_of_reachable {s : State} (h : positionReachable s = true) : s.positionHasMeaning = true := by
  unfold positionReachable at h
  unfold State.positionHasMeaning
  split at h <;> simp_all

/-! ### Runs -/

@[simp] theorem runOps_nil (s : State) : runOps [] s = some (s, []) := rfl

/-- A run that begins with an operation: the operation answers, and the rest runs from there. -/
theorem runOps_cons_iff (i : Instr) (is : List Instr) (s u : State) (rs : List RspWord) :
    runOps (i :: is) s = some (u, rs) ↔
      ∃ t rs', exec i s = .next t ∧ runOps is t = some (u, rs') ∧ rs = t.rsp.getD 0#10 :: rs' := by
  rw [runOps]
  split
  · next t h =>
    simp only [Option.map_eq_some_iff, Prod.mk.injEq, Prod.exists]
    constructor
    · rintro ⟨v, rs', h', rfl, rfl⟩
      exact ⟨t, rs', h, h', rfl⟩
    · rintro ⟨t', rs', h', h'', rfl⟩
      cases h.symm.trans h'
      exact ⟨u, rs', h'', rfl, rfl⟩
  · next h =>
    constructor
    · intro h'
      cases h'
    · rintro ⟨t, rs', h', _⟩
      exact absurd h' (h t)

/-- A run in two parts. -/
theorem runOps_append_iff (is js : List Instr) (s u : State) (rs : List RspWord) :
    runOps (is ++ js) s = some (u, rs) ↔
      ∃ t rs1 rs2, runOps is s = some (t, rs1) ∧ runOps js t = some (u, rs2) ∧ rs = rs1 ++ rs2 := by
  induction is generalizing s rs with
  | nil => simp
  | cons i is ih =>
    rw [List.cons_append, runOps_cons_iff]
    constructor
    · rintro ⟨t, rs', h, h', rfl⟩
      obtain ⟨t', r1, r2, h1, h2, rfl⟩ := (ih t rs').1 h'
      exact ⟨t', _, r2, (runOps_cons_iff _ _ _ _ _).2 ⟨t, r1, h, h1, rfl⟩, h2, rfl⟩
    · rintro ⟨t, r1, r2, h1, h2, rfl⟩
      obtain ⟨t', rs', h, h', rfl⟩ := (runOps_cons_iff _ _ _ _ _).1 h1
      exact ⟨t', _, h, (ih t' _).2 ⟨t, rs', r2, h', h2, rfl⟩, rfl⟩

/-- One response for each operation (R13). -/
theorem runOps_length {is : List Instr} {s u : State} {rs : List RspWord} (h : runOps is s = some (u, rs)) :
    rs.length = is.length := by
  induction is generalizing s rs with
  | nil => simp at h; simp [← h.2]
  | cons i is ih =>
    obtain ⟨t, rs', _, h', rfl⟩ := (runOps_cons_iff _ _ _ _ _).1 h
    simp [ih h']

/-- A run of the machine, one step at a time. -/
theorem runSteps_succ {k : Nat} {s t u : State} {rs : List RspWord} (h : step s = .next t)
    (h' : runSteps k t = some (u, rs)) : runSteps (k + 1) s = some (u, t.rsp.toList ++ rs) := by
  rw [runSteps, h]
  simp [h']

/-! ### Byte sequences -/

theorem quiet_append (last : Micros) (as bs : List Arrival) :
    quiet last (as ++ bs) = (quiet last as && quiet (lastStamp last as) bs) := by
  induction as generalizing last with
  | nil => simp [quiet, lastStamp]
  | cons a as ih => simp [quiet, lastStamp, ih, Bool.and_assoc]

theorem lastStamp_append (last : Micros) (as bs : List Arrival) :
    lastStamp last (as ++ bs) = lastStamp (lastStamp last as) bs := by
  induction as generalizing last with
  | nil => rfl
  | cons a as ih => simp [lastStamp, ih]

@[simp] theorem bytesOf_nil : bytesOf [] = [] := rfl

/-- An operation hands over at most one received byte, in front of those of the operations after it. -/
theorem bytesOf_cons (i : Instr) (is : List Instr) : bytesOf (i :: is) = (arrivalOf i).toList ++ bytesOf is := by
  cases h : arrivalOf i <;> simp [bytesOf, h]

/-- A next state of an operation has been reset and is at a position with a meaning. -/
theorem exec_next_meaning {i : Instr} {s t : State} (h : exec i s = .next t) :
    t.resetSeen = true ∧ t.positionHasMeaning = true := by
  obtain ⟨u, m, d, rfl, h⟩ | ⟨rfl, rfl⟩ | ⟨⟨hr, hm⟩, _, ⟨f, v, rfl⟩ | ⟨m, rfl, _, rfl⟩⟩ := exec_next_cases h
  · obtain ⟨hr, hm, ⟨_, _, rfl⟩ | ⟨_, _, rfl⟩ | ⟨_, _, rfl⟩ | ⟨_, _, _, hlt, rfl⟩ | ⟨_, _, _, rfl⟩⟩ :=
      execByte_next_cases _ _ _ h
    · exact ⟨hr, rfl⟩
    · exact ⟨hr, rfl⟩
    · exact ⟨hr, hm⟩
    · exact ⟨hr, by simp [State.positionHasMeaning, Config.nchan]; omega⟩
    · exact ⟨hr, rfl⟩
  · exact ⟨rfl, rfl⟩
  · exact ⟨hr, hm⟩
  · exact ⟨hr, hm⟩

end Sys2Proof.Machine
end

