-- ==== Sys2Proof/Laws/PerInstr.lean ====
section
/-! SUPPORT. One lemma per operation: its encoding matches its own row of the opcode map (R77). -/

namespace Sys2Proof.Laws.EncodedRow

/-- The word of the operation matches the row of its mnemonic (R77). -/
def Statement (i : Instr) : Prop :=
  ∃ r ∈ opcodeMap, r.mnemonic = mnemonicOf i ∧ r.accepts (encode i) = true

theorem byte (u : Micros) (m : Millis) (d : Byte) : Statement (.byte u m d) := by
  refine ⟨⟨"BYTE", 0xFF000000000000000000#80, 0x10000000000000000000#80⟩, by decide, rfl, ?_⟩
  rw [OpcodeRow.accepts, beq_iff_eq, maskB_iff _ _ (by decide), field_eq_iff, toNat_field, encode_byte_toNat]
  have := u.isLt; have := m.isLt; have := d.isLt
  simp only [BitVec.toNat_ofNat]
  omega

theorem read (n : ChanNum) : Statement (.read n) := by
  refine ⟨⟨"READ", 0xFFFFFFFFFFFFFFFF0000#80, 0x20000000000000000000#80⟩, by decide, rfl, ?_⟩
  rw [OpcodeRow.accepts, beq_iff_eq, maskR_iff _ _ (by decide), field_eq_iff, toNat_field, encode_read_toNat]
  have := n.isLt
  simp only [BitVec.toNat_ofNat]
  omega

theorem conn (m : Millis) : Statement (.conn m) := by
  refine ⟨⟨"CONN", 0xFFFFFFFFFF00000000FF#80, 0x30000000000000000000#80⟩, by decide, rfl, ?_⟩
  rw [OpcodeRow.accepts, beq_iff_eq, maskT_iff _ _ (by decide), field_eq_iff, field_eq_iff, toNat_field, toNat_field,
    encode_conn_toNat]
  have := m.isLt
  simp only [BitVec.toNat_ofNat]
  omega

theorem poll (m : Millis) : Statement (.poll m) := by
  refine ⟨⟨"POLL", 0xFFFFFFFFFF00000000FF#80, 0x40000000000000000000#80⟩, by decide, rfl, ?_⟩
  rw [OpcodeRow.accepts, beq_iff_eq, maskT_iff _ _ (by decide), field_eq_iff, field_eq_iff, toNat_field, toNat_field,
    encode_poll_toNat]
  have := m.isLt
  simp only [BitVec.toNat_ofNat]
  omega

theorem flag : Statement .flag :=
  ⟨⟨"FLAG", 0xFFFFFFFFFFFFFFFFFFFF#80, 0x50000000000000000000#80⟩, by decide, rfl, by decide⟩

theorem init : Statement .init :=
  ⟨⟨"INIT", 0xFFFFFFFFFFFFFFFFFFFF#80, 0x60000000000000000000#80⟩, by decide, rfl, by decide⟩

end Sys2Proof.Laws.EncodedRow
end

