-- ==== Sys2Proof/Tests/Slice0.lean ====
section
/-! SUPPORT. The model's own tests. Expected results come from the spec: words and steps from the tables of
`95_test_vectors.md` section 2 (vector numbers in the comments), encodings from `30_encoding.md`. Then one witness for
each statement that has hypotheses: a state and operands that meet all of them together. -/

namespace Sys2Proof.Tests

open Sys2Proof Sys2Proof.Machine Sys2Proof.Safety

/-- A state after reset, written as the vectors write it: `(sync_state, chan_cnt, frame_received, last_byte_us, last_frame_ms)`. -/
def st (y : SyncState) (c : Count) (fr : Bool) (lb : Micros) (lf : Millis) (buf : Memory) : State :=
  { State.reset with syncState := y, chanCnt := c, frameReceived := fr, lastByteUs := lb, lastFrameMs := lf, buf := buf }

/-- The buffer of the vectors in section 2.3. -/
def buf23 : Memory := [(1, 0xA1#8), (2, 0xA2#8), (511, 0xAF#8), (512, 0xB0#8)]

/-- The buffer of the vectors in section 2.4. -/
def buf24 : Memory := [(1, 0x04#8), (7, 0x9C#8), (512, 0x01#8)]

/-- The step that performs the word ends in the state, with the response, and the host's queue is empty again. -/
def stepsTo (s : State) (w : Nat) (t : State) (r : RspWord) : Bool :=
  match step (s.withFetchWord 80 w) with
  | .next u => u == { t with rsp := some r }
  | _ => false

/-- The outcome is a next state that carries the response. -/
def answers (o : Host.Outcome State Fault Refusal) (r : Option RspWord) : Bool :=
  match o with
  | .next t => t.rsp == r
  | _ => false

theorem next_of_answers {o : Host.Outcome State Fault Refusal} {r : Option RspWord} (h : answers o r = true) :
    ∃ t, o = .next t ∧ t.rsp = r := by
  cases o with
  | next t => exact ⟨t, rfl, by simpa [answers] using h⟩
  | fault f => cases h
  | refused f => cases h

theorem next_of_answers' {o : Host.Outcome State Fault Refusal} {r : Option RspWord} (h : answers o r = true) :
    ∃ t, o = .next t := (next_of_answers h).imp fun _ ht => ht.1

/-! ### Decoding (section 2.1; the first word of each group is written out bit by bit from R72 to R75) -/

theorem test_decode_byte :
    decode 0b00010000000100100011010001010110011110001001101010111100110111101111000010100101#80 =
      .ok (.byte 0x12345678#32 0x9ABCDEF0#32 0xA5#8) ∧
    decode 0x10000003E80000000100#80 = .ok (.byte 1000#32 1#32 0x00#8) ∧
    decode 0x10FFFFFFFFFFFFFFFFFF#80 = .ok (.byte 4294967295#32 4294967295#32 0xFF#8) := by decide

theorem test_decode_read :
    decode 0b00100000000000000000000000000000000000000000000000000000000000000000001000000000#80 = .ok (.read 512#16) ∧
    decode 0x2000000000000000FFFF#80 = .ok (.read 65535#16) := by decide

theorem test_decode_conn_poll :
    decode 0b00110000000000000000000000000000000000000000000000000000001011101110000000000000#80 = .ok (.conn 12000#32) ∧
    decode 0b01000000000000000000000000000000000000000000000000000000001110101001100100000000#80 = .ok (.poll 15001#32) ∧
    decode 0x4000000000FFFFFFFF00#80 = .ok (.poll 4294967295#32) := by decide

theorem test_decode_flag_init :
    decode 0x50000000000000000000#80 = .ok .flag ∧ decode 0x60000000000000000000#80 = .ok .init := by decide

theorem test_decode_table_word :
    decodeTableWord 80 0x60000000000000000000 = some .init ∧ decodeTableWord 80 0x70000000000000000000 = none ∧
    decodeTableWord 8 0x10 = none := by decide

/-- The illegal words of section 2.1, each rejected by name. -/
theorem test_decode_illegal :
    decode 0x00000000000000000000#80 = .error (.undefinedOpcode 0x0#4) ∧
    decode 0xFFFFFFFFFFFFFFFFFFFF#80 = .error (.undefinedOpcode 0xF#4) ∧
    decode 0x70000000000000000000#80 = .error (.undefinedOpcode 0x7#4) ∧
    decode 0x11000003E80000000100#80 = .error (.reservedBits "BYTE") ∧
    decode 0x20000000000000010001#80 = .error (.reservedBits "READ") ∧
    decode 0x300000000000002EE001#80 = .error (.reservedBits "CONN") ∧
    decode 0x400000000100003A9900#80 = .error (.reservedBits "POLL") ∧
    decode 0x50000000000000000001#80 = .error (.reservedBits "FLAG") ∧
    decode 0x68000000000000000000#80 = .error (.reservedBits "INIT") := by decide

/-! ### Well-formedness: an ill-formed line for each check, refused (R83, R84) -/

theorem test_wellFormed_refuses :
    wellFormed (.byte 4294967296 0 0) = false ∧ wellFormed (.byte 0 4294967296 0) = false ∧
    wellFormed (.byte 0 0 256) = false ∧ wellFormed (.read 65536) = false ∧ wellFormed (.conn 4294967296) = false ∧
    wellFormed (.poll 4294967296) = false ∧ wellFormed (.gbyte 4294967296 0 0) = false ∧
    wellFormed (.gbyte 0 4294967296 0) = false ∧ wellFormed (.gbyte 0 0 256) = false ∧
    wellFormed (.frame 4294967296 0 0 0 []) = false ∧ wellFormed (.frame 0 4294967296 0 0 []) = false ∧
    wellFormed (.frame 0 0 4294967296 0 []) = false ∧ wellFormed (.frame 0 0 0 256 []) = false ∧
    wellFormed (.frame 0 0 0 0 [0, 256]) = false := by decide

theorem test_wellFormed_accepts :
    wellFormed (.byte 4294967295 4294967295 255) = true ∧ wellFormed (.read 65535) = true ∧
    wellFormed (.frame 1000 44 30 0 [0x20, 0x21]) = true := by decide

/-! ### Traces (R83, R84, R86) -/

theorem test_readLine :
    readLine ['B', 'Y', 'T', 'E', ' ', '1', '0', '0', '0', ',', ' ', '1', ',', ' ', '0', 'x', 'A', '5'] =
      .operation (.byte 1000 1 0xA5) ∧
    readLine ['R', 'E', 'A', 'D', ' ', '7', ' ', ';', ' ', '-', '>', ' ', 'v'] = .operation (.read 7) ∧
    readLine [' ', ';', ' ', 'x'] = .blank ∧ readLine ['F', 'L', 'A', 'G', ' ', '1'] = .unreadable ∧
    readLine ['R', 'E', 'A', 'D', ' ', '0', 'x'] = .unreadable ∧
    readLine ['F', 'R', 'A', 'M', 'E', ' ', '9', ',', '4', ',', '3', ',', '0', ',', ' ', '[', '1', ',', '2', ']'] =
      .operation (.frame 9 4 3 0 [1, 2]) := by decide

/-- The opening of program PR4's frame B: the break at `t_us` 24528 after a BYTE at 23528, then two channels. -/
theorem test_expand_frame :
    expandTrace 23528#32 [.frame 1000 44 30 0 [0x20, 0x21], .read 1] =
      [.byte 24528#32 30#32 0x00#8, .byte 24572#32 30#32 0x20#8, .byte 24616#32 30#32 0x21#8, .read 1#16] := by decide

/-- R84: after INIT, `prev` is the reset value again. -/
theorem test_expand_after_init :
    instrsOfTrace [.byte 500 0 0, .init, .gbyte 89 1 2] =
      some [.byte 500#32 0#32 0#8, .init, .byte 89#32 1#32 2#8] := by decide

/-- The example of R86. -/
theorem test_render :
    renderOpWord (encode (.byte 1000#32 1#32 0x00#8)) =
      ['1', '0', '0', '0', '0', '0', '0', '3', 'E', '8', '0', '0', '0', '0', '0', '0', '0', '1', '0', '0'] ∧
    renderRspWord 0x09C#10 = ['0', '9', 'C'] := by decide

/-! ### The comparator (section 2.2): `last_byte_us`, `t_us`, gap, break? -/

theorem test_gap_table :
    ∀ r ∈ [(1000, 1000, 0, false), (1000, 1044, 44, false), (1000, 1088, 88, false), (1000, 1089, 89, true),
        (0, 88, 88, false), (0, 89, 89, true), (4294967280, 16, 32, false), (4294967280, 73, 89, true),
        (4294967295, 0, 1, false), (1000, 999, 4294967295, true)],
      gap (BitVec.ofNat 32 r.2.1) (BitVec.ofNat 32 r.1) = BitVec.ofNat 32 r.2.2.1 ∧
      showsBreak (gap (BitVec.ofNat 32 r.2.1) (BitVec.ofNat 32 r.1)) = r.2.2.2 := by decide

/-! ### One step of each operation -/

/-- V2, V3, V5, V12, V14, V17: no store, or a store outside the buffer of section 2.3. -/
theorem test_byte_position :
    stepsTo (st .awaitingBreak 0 true 1000 50 buf23) 0x10000004400000000700 (st .awaitingBreak 0 true 1088 50 buf23) 0x000 ∧
    stepsTo (st .awaitingBreak 0 false 1000 0 buf23) 0x10000004410000000700 (st .receiving 1 false 1089 0 buf23) 0x000 ∧
    stepsTo (st .awaitingBreak 0 true 1000 50 buf23) 0x100000044100000007FF (st .awaitingBreak 0 true 1089 50 buf23) 0x000 ∧
    stepsTo (st .receiving 512 false 1000 0 buf23) 0x10000004410000000744 (st .awaitingBreak 0 false 1089 0 buf23) 0x000 ∧
    stepsTo (st .receiving 300 true 1000 50 buf23) 0x10000007D00000000700 (st .receiving 1 true 2000 50 buf23) 0x000 ∧
    stepsTo (st .receiving 5 false 4294967280 0 buf23) 0x10000000100000000766
      (st .receiving 6 false 16 0 [(1, 0xA1), (2, 0xA2), (5, 0x66), (511, 0xAF), (512, 0xB0)]) 0x000 := by decide

/-- V7, V8, V9, V11: channel stores and completion. -/
theorem test_byte_store :
    stepsTo (st .receiving 2 true 1000 50 buf23) 0x10000004140000000700
      (st .receiving 3 true 1044 50 [(1, 0xA1), (511, 0xAF), (512, 0xB0)]) 0x000 ∧
    stepsTo (st .receiving 511 false 1000 0 buf23) 0x10000004140000000733
      (st .receiving 512 false 1044 0 [(1, 0xA1), (2, 0xA2), (511, 0x33), (512, 0xB0)]) 0x000 ∧
    stepsTo (st .receiving 512 false 1000 0 buf23) 0x10000004140000000744
      (st .awaitingBreak 0 true 1044 7 [(1, 0xA1), (2, 0xA2), (511, 0xAF), (512, 0x44)]) 0x100 ∧
    stepsTo (st .receiving 512 false 1000 0 buf23) 0x10000004400000000744
      (st .awaitingBreak 0 true 1088 7 [(1, 0xA1), (2, 0xA2), (511, 0xAF), (512, 0x44)]) 0x100 := by decide

/-- RD2, RD3, RD4, RD5, RD6, RD8. -/
theorem test_read_with_frame :
    ∀ r ∈ [(0x20000000000000000007, 0x09C#10), (0x20000000000000000200, 0x001#10), (0x20000000000000000100, 0x000#10),
        (0x20000000000000000000, 0x000#10), (0x20000000000000000201, 0x000#10), (0x2000000000000000FFFF, 0x000#10)],
      stepsTo (st .awaitingBreak 0 true 5 6 buf24) r.1 (st .awaitingBreak 0 true 5 6 buf24) r.2 := by decide

/-- RD10. -/
theorem test_read_without_frame :
    stepsTo (st .awaitingBreak 0 false 5 6 buf24) 0x20000000000000000007 (st .awaitingBreak 0 false 5 6 buf24) 0x000 := by
  decide

/-- CN2, CN3, CN10, and CN8 across the wrap. -/
theorem test_conn :
    (∀ r ∈ [(0x300000000000002EDF00, 0x100#10), (0x300000000000002EE000, 0x000#10), (0x30000000000000270F00, 0x000#10)],
      stepsTo (st .receiving 9 true 5 10000 buf24) r.1 (st .receiving 9 true 5 10000 buf24) r.2) ∧
    stepsTo (st .awaitingBreak 0 true 5 4294967040 []) 0x3000000000000000FF00
      (st .awaitingBreak 0 true 5 4294967040 []) 0x100 := by decide

/-- CN6: flag 0. -/
theorem test_conn_without_frame :
    stepsTo (st .awaitingBreak 0 false 5 10000 []) 0x30000000000000271000 (st .awaitingBreak 0 false 5 10000 []) 0x000 := by
  decide

/-- PL3, PL4, PL9 and PL11 (during a frame). -/
theorem test_poll :
    stepsTo (st .awaitingBreak 0 true 5 10000 buf24) 0x400000000000003A9800 (st .awaitingBreak 0 true 5 10000 buf24) 0x000 ∧
    stepsTo (st .awaitingBreak 0 true 5 10000 buf24) 0x400000000000003A9900 (st .awaitingBreak 0 false 5 10000 buf24) 0x100 ∧
    stepsTo (st .awaitingBreak 0 true 5 4294963200 []) 0x40000000000000038800 (st .awaitingBreak 0 true 5 4294963200 []) 0x000 ∧
    stepsTo (st .receiving 100 true 777000 10000 buf24) 0x400000000000003A9900 (st .receiving 100 false 777000 10000 buf24) 0x100 := by
  decide

/-- PL5: no repeat. -/
theorem test_poll_once :
    stepsTo (st .awaitingBreak 0 false 5 10000 buf24) 0x400000000000003A9900 (st .awaitingBreak 0 false 5 10000 buf24) 0x000 := by
  decide

/-- FI1, FI2. -/
theorem test_flag :
    stepsTo State.reset 0x50000000000000000000 State.reset 0x000 ∧
    stepsTo (st .receiving 17 true 123456 789 []) 0x50000000000000000000 (st .receiving 17 true 123456 789 []) 0x100 := by
  decide

/-- FI3. -/
theorem test_init :
    stepsTo (st .receiving 17 true 123456 789 buf23) 0x60000000000000000000 State.reset 0x000 := by decide

/-- R80: the illegal words leave the state and answer `0x200`; R202: before the first reset they have no meaning. -/
theorem test_illegal_word :
    (∀ w ∈ [0x00000000000000000000, 0xFFFFFFFFFFFFFFFFFFFF, 0x11000003E80000000100],
      stepsTo (st .receiving 17 true 123456 789 buf23) w (st .receiving 17 true 123456 789 buf23) 0x200) ∧
    step ({ State.reset with resetSeen := false }.withFetchWord 80 0) = .refused .beforeFirstReset :=
  ⟨by decide, rfl⟩

/-- R85, R161: presented, then answered a cycle later; `rst` abandons. -/
theorem test_port_cycles :
    ((Port.run [⟨false, true, 0x50000000000000000000, false⟩, ⟨false, true, 0x60000000000000000000, false⟩,
        ⟨false, false, 0, true⟩, ⟨false, true, 0x60000000000000000000, false⟩, ⟨true, false, 0, true⟩]
      ⟨st .receiving 17 true 123456 789 buf23, none, 0⟩).map Prod.snd) =
      some ⟨[0x50000000000000000000, 0x60000000000000000000], [0x100]⟩ := by decide

/-- R23, R173: no operation has a meaning at a pair that no rule gives one, INIT apart (R160). -/
theorem test_position_without_meaning :
    exec (.read 1) (st .awaitingBreak 1 true 0 0 buf24) = .refused (.positionWithoutMeaning .awaitingBreak 1) ∧
    exec .flag (st .receiving 513 true 0 0 buf24) = .refused (.positionWithoutMeaning .receiving 513) ∧
    exec .init (st .receiving 513 true 0 0 buf24) = .next { State.reset with rsp := some 0x000 } := ⟨rfl, rfl, rfl⟩

/-! ### The states between steps -/

theorem test_reset_memory_wf : State.reset.buf.wf = true := by decide

theorem test_sync_code : SyncState.awaitingBreak.code = 0#1 ∧ SyncState.receiving.code = 1#1 := by decide

/-! ### Witnesses: the hypotheses of each statement are met together -/

/-- A quiet sequence of any length: bytes that arrive at one time. -/
theorem quiet_replicate (l : Micros) (m : Millis) (d : Byte) (n : Nat) : quiet l (List.replicate n ⟨l, m, d⟩) = true := by
  induction n with
  | zero => rfl
  | succ n ih =>
    have h : showsBreak (gap l l) = false := by simp [gap, showsBreak]
    simp [List.replicate_succ, quiet, h, ih]

/-- The shape of a start of a frame, from any `last_byte_us` far enough back. -/
theorem frameStart_replicate (k : Nat) (d : Byte) : frameStart k 0#32 (⟨89, 5, 0⟩ :: List.replicate k ⟨89, 7, d⟩) = true := by
  have h : showsBreak (gap 89#32 0#32) = true := by decide
  simp [frameStart, h, quiet_replicate, Config.scNull]

theorem witness_EncodeOfDecodeIsIdentity : decode 0x10123456789ABCDEF0A5#80 = .ok (.byte 0x12345678 0x9ABCDEF0 0xA5) := by
  decide

theorem witness_WordSpellsOperationIffRowMatches :
    ⟨"READ", 0xFFFFFFFFFFFFFFFF0000#80, 0x20000000000000000000#80⟩ ∈ opcodeMap ∧
    OpcodeRow.accepts ⟨"READ", 0xFFFFFFFFFFFFFFFF0000#80, 0x20000000000000000000#80⟩ 0x20000000000000000007#80 = true := by
  decide

theorem witness_IllegalWordIsRejectedByName :
    (∀ r ∈ opcodeMap, r.accepts 0x70000000000000000000#80 = false) ∧ 0x7#4 ≤ opcodeOf 0x70000000000000000000#80 ∧
    (∀ r ∈ opcodeMap, r.accepts 0x0#80 = false) ∧ opcodeOf 0x0#80 = 0x0#4 ∧
    (∀ r ∈ opcodeMap, r.accepts 0x68000000000000000000#80 = false) ∧ opcodeOf 0x68000000000000000000#80 = 0x6#4 := by
  decide

theorem witness_StepPerformsPresentedOperation :
    { State.reset with inputs := [.present 0x50000000000000000000#80, .rst] }.inputs =
      .present 0x50000000000000000000#80 :: [.rst] ∧ decode 0x50000000000000000000#80 = .ok .flag := by decide

theorem witness_IllegalWordIsAnsweredIll :
    { State.reset with inputs := [.present 0x0#80] }.resetSeen = true ∧
    { State.reset with inputs := [.present 0x0#80] }.positionHasMeaning = true ∧
    { State.reset with inputs := [.present 0x0#80] }.inputs = .present 0x0#80 :: [] ∧
    ∀ r ∈ opcodeMap, r.accepts 0x0#80 = false := by decide

theorem witness_ResetInputEqualsInitWithoutResponse :
    { st .receiving 17 true 1 2 buf23 with inputs := [.rst], resetSeen := false }.inputs = .rst :: [] := by decide

theorem witness_NothingPresentedChangesNothing : (st .receiving 17 true 1 2 buf23).inputs = [] := by decide

theorem witness_PortQueueRunIsFoldOfOperations :
    runOps [.byte 89 0 0, .flag] { State.reset with inputs := [.rst] } =
      some ({ st .receiving 1 false 89 0 [] with inputs := [.rst], rsp := some 0x000 }, [0x000, 0x000]) := by decide

theorem witness_MemWriteReplacesOneSlot :
    memWrite State.reset 0 1 = .ok { State.reset with buf := [(0, 1)] } ∧
    memWrite State.reset 512 1 = .ok { State.reset with buf := [(512, 1)] } ∧
    memWrite State.reset 513 1 = .error (.noSuchSlot 513) ∧ memRead State.reset 513 = .error (.noSuchSlot 513) :=
  ⟨rfl, rfl, rfl, rfl⟩

theorem witness_ByteWithoutBreakInAwaitingBreakIsDiscarded :
    let s := st .awaitingBreak 0 true 1000 50 buf23
    s.resetSeen = true ∧ s.syncState = .awaitingBreak ∧ s.chanCnt = 0#10 ∧ (1088#32 - s.lastByteUs).toNat ≤ 88 := by decide

theorem witness_ByteWithBreakAndNullStartCodeStartsFrame :
    let s := st .receiving 300 true 1000 50 buf23
    s.resetSeen = true ∧ s.positionHasMeaning = true ∧ 88 < (1089#32 - s.lastByteUs).toNat ∧
    (st .receiving 0 true 1000 50 []).positionHasMeaning = true ∧ (st .receiving 0 true 1000 50 []).chanCnt = 0#10 := by
  decide

theorem witness_ByteWithBreakAndOtherStartCodeIsRejected :
    let s := st .receiving 512 true 1000 50 buf23
    s.resetSeen = true ∧ s.positionHasMeaning = true ∧ 0x44#8 ≠ 0x00#8 ∧ 88 < (1089#32 - s.lastByteUs).toNat := by decide

theorem witness_ByteInFrameStoresChannel :
    ∀ k ∈ [1, 511, 512],
      let s := st .receiving (BitVec.ofNat 10 k) true 1000 50 buf23
      s.resetSeen = true ∧ s.syncState = .receiving ∧ s.chanCnt = BitVec.ofNat 10 k ∧ 1 ≤ k ∧ k ≤ 512 ∧
      (1088#32 - s.lastByteUs).toNat ≤ 88 := by decide

theorem witness_Byte513CompletesFrame :
    let s := st .receiving 512 true 1000 50 buf23
    s.resetSeen = true ∧ s.syncState = .receiving ∧ s.chanCnt = 512#10 ∧ (1088#32 - s.lastByteUs).toNat ≤ 88 := by decide

theorem witness_ByteFrameIsOneSlotAndNamedRegisters :
    (∃ t, exec (.byte 1044 7 0x44) (st .receiving 512 false 1000 0 buf23) = .next t) ∧
    byteSlot 1044 0x44 (st .receiving 512 false 1000 0 buf23) = some 512 ∧
    byteSlot 1089 0x00 (st .receiving 512 false 1000 0 buf23) = some 0 ∧
    byteSlot 1089 0x44 (st .receiving 512 false 1000 0 buf23) = none := ⟨⟨_, rfl⟩, by decide⟩

theorem witness_ByteMillisUnusedUnlessCompleting : byteCompletes 1044 (st .receiving 511 false 1000 0 buf23) = false := by
  decide

theorem witness_ByteDependsOnMicrosOnlyThroughGap :
    ∃ t, exec (.byte 1044 7 0x44) (st .receiving 512 false 1000 0 buf23) = .next t := ⟨_, rfl⟩

theorem witness_BreakForgetsPosition :
    let s := st .receiving 512 true 1000 50 buf23
    s.positionHasMeaning = true ∧ { s with syncState := .awaitingBreak, chanCnt := 0#10 }.positionHasMeaning = true ∧
    88 < (1089#32 - s.lastByteUs).toNat := by decide

theorem witness_GapIsTrueElapsedTime :
    dutyWithinWrap 4294967280 4294967369 ∧ dutyWithinWrap 0 4294967295 := by unfold dutyWithinWrap; decide

theorem witness_PositionWithoutMeaningIsRefused :
    let s := { st .awaitingBreak 1 true 0 0 [] with inputs := [.present 0x0#80] }
    s.resetSeen = true ∧ s.chanCnt ≠ 0#10 ∧ 512#10 < (st .receiving 513 false 0 0 []).chanCnt ∧ Instr.flag ≠ .init ∧
    s.inputs = .present 0x0#80 :: [] ∧ ∀ r ∈ opcodeMap, r.accepts 0x0#80 = false := by decide

/-- Of READ, CONN, POLL and FLAG, and of the statement that every operation answers: the block has been reset. -/
theorem witness_reset_seen :
    (st .receiving 512 true 1000 50 buf23).resetSeen = true ∧ (st .receiving 512 true 1000 50 buf23).positionHasMeaning = true := by
  decide

/-- READ at the ends of its range and just outside; CONN and POLL at the ends of their windows. -/
theorem witness_ReadConnPoll_clauses :
    (∀ n ∈ [1#16, 512#16], 1 ≤ n.toNat ∧ n.toNat ≤ 512) ∧ (∀ n ∈ [0#16, 513#16], ¬(1 ≤ n.toNat ∧ n.toNat ≤ 512)) ∧
    (1999#32 - 0#32).toNat < 2000 ∧ ¬(2000#32 - 0#32).toNat < 2000 ∧ 5000 < (5001#32 - 0#32).toNat ∧
    ¬5000 < (5000#32 - 0#32).toNat := by simp

theorem witness_AccessMatrixIsKept :
    (∃ t, exec (.poll 5001) (st .awaitingBreak 0 true 0 0 []) = .next t) ∧
    (∃ t, exec .init (st .receiving 3 true 1 1 buf23) = .next t) :=
  ⟨next_of_answers' (r := some 0x100) (by decide), next_of_answers' (r := some 0x000) (by decide)⟩

theorem witness_ReadConnFlagAreIdempotent :
    (∃ t, exec (.read 7) (st .awaitingBreak 0 true 0 0 buf24) = .next t) ∧
    (∃ t, exec (.conn 7) (st .awaitingBreak 0 true 0 0 buf24) = .next t) ∧
    (∃ t, exec .flag (st .awaitingBreak 0 true 0 0 buf24) = .next t) :=
  ⟨next_of_answers' (r := some 0x09C) (by decide), next_of_answers' (r := some 0x100) (by decide),
    next_of_answers' (r := some 0x100) (by decide)⟩

theorem witness_OperationBeforeFirstResetIsRefused :
    let s := { State.reset with resetSeen := false, inputs := [.present 0x0#80] }
    s.resetSeen = false ∧ Instr.flag ≠ .init ∧ s.inputs = .present 0x0#80 :: [] ∧
    ∀ r ∈ opcodeMap, r.accepts 0x0#80 = false := by decide

theorem witness_AnomaliesAreAbsorbed :
    Anomaly.truncatedFrame ∈ anomaliesOf (.byte 2000 7 0x80) (st .receiving 300 false 1000 0 []) ∧
    Anomaly.invalidStartCode ∈ anomaliesOf (.byte 2000 7 0x80) (st .receiving 300 false 1000 0 []) ∧
    Anomaly.discardedByte ∈ anomaliesOf (.byte 1088 7 0x80) (st .awaitingBreak 0 false 1000 0 []) ∧
    Anomaly.signalLoss ∈ anomaliesOf (.poll 5001) (st .awaitingBreak 0 true 1000 0 []) ∧
    Anomaly.outOfRangeRead ∈ anomaliesOf (.read 513) (st .awaitingBreak 0 true 1000 0 []) ∧
    (st .receiving 300 false 1000 0 []).positionHasMeaning = true := by decide

theorem witness_EventsAreCompletionAndLoss :
    (∃ t, exec (.byte 1044 7 0x44) (st .receiving 512 false 1000 0 []) = .next t ∧ t.rsp = some 0x100#10) ∧
    (∃ t, exec (.poll 5001) (st .awaitingBreak 0 true 1000 0 []) = .next t ∧ t.rsp = some 0x100#10) :=
  ⟨next_of_answers (r := some 0x100) (by decide), next_of_answers (r := some 0x100) (by decide)⟩

theorem witness_LivenessHasThreeRegions :
    let s := st .awaitingBreak 0 true 0 10000 buf24
    s.resetSeen = true ∧ s.positionHasMeaning = true ∧ s.frameReceived = true ∧ (∀ n ∈ [1#16, 512#16], 1 ≤ n.toNat ∧ n.toNat ≤ 512) ∧
    (15000#32 - s.lastFrameMs).toNat ≤ 5000 ∧ 5000 < (15001#32 - s.lastFrameMs).toNat ∧
    (11999#32 - s.lastFrameMs).toNat < 2000 := by simp [st, State.reset, State.positionHasMeaning]

theorem witness_ConnectedDecaysByTimeAlone :
    let s := st .awaitingBreak 0 true 0 10000 buf24
    s.lastFrameMs = stamp 10000 ∧ (10000 ≤ 12000 ∧ 12000 ≤ 13000) ∧
    (∃ t, exec (.conn (stamp 12000)) s = .next t ∧ t.rsp = some 0x000#10) ∧
    (∃ u, exec (.conn (stamp 13000)) s = .next u) :=
  ⟨by decide, by decide, next_of_answers (r := some 0x000) (by decide), next_of_answers' (r := some 0x000) (by decide)⟩

theorem witness_NoSignalAnswersZeroUntilNextFrame :
    runOps [.byte 89 0 0, .poll 9999, .conn 0] State.reset =
      some ({ st .receiving 1 false 89 0 [] with rsp := some 0x000 }, [0x000, 0x000, 0x000]) ∧
    (∀ p ∈ [Instr.byte 89 0 0, .poll 9999, .conn 0].zip [0x000#10, 0x000, 0x000], isByte p.1 = true → p.2 = 0x000#10) := by
  decide

theorem witness_PollAndCompletionOrdersEndAlike :
    let s := st .receiving 512 true 1000 50 []
    s.resetSeen = true ∧ s.frameReceived = true ∧ byteCompletes 1044 s = true ∧ 5000 < (6000#32 - s.lastFrameMs).toNat ∧
    (6000#32 - 5999#32).toNat ≤ 5000 := by decide

theorem witness_StepKeepsInvariant :
    let s := { st .receiving 2 true 1000 50 buf23 with inputs := [.present 0x10000004140000000700#80] }
    Inv s ∧ ∃ t, step s = .next t := ⟨by decide, next_of_answers' (r := some 0x000) (by decide)⟩

theorem witness_InvariantStatesAlwaysStep : Inv (st .receiving 512 true 1000 50 buf23) := by decide

theorem witness_StepKeepsBufferCanonical :
    (st .receiving 0 true 1000 50 buf23).buf.wf = true ∧ ∃ t, step (st .receiving 0 true 1000 50 buf23) = .next t :=
  ⟨by decide, next_of_answers' (r := none) (by decide)⟩

theorem witness_FullFrameIsReceived :
    State.reset.resetSeen = true ∧ State.reset.positionHasMeaning = true ∧
    isFrame State.reset.lastByteUs (⟨89, 5, 0⟩ :: List.replicate 512 ⟨89, 7, 0x55⟩) = true :=
  ⟨rfl, rfl, frameStart_replicate 512 0x55⟩

theorem witness_FrameCompletesExactlyAfterFrameShape :
    State.reset.syncState = .awaitingBreak ∧
    runOps ([(⟨89, 5, 0⟩ : Arrival), ⟨100, 5, 9⟩].map Arrival.op) State.reset =
      some ({ st .receiving 2 false 100 0 [(1, 9)] with rsp := some 0x000 }, [0x000, 0x000]) := by decide

theorem witness_ReadDuringReceptionIsTorn :
    let s := st .awaitingBreak 0 true 0 50 buf23
    s.resetSeen = true ∧ s.positionHasMeaning = true ∧ s.frameReceived = true ∧
    frameStart 0 s.lastByteUs [⟨89, 5, 0⟩] = true ∧
    frameStart 511 s.lastByteUs (⟨89, 5, 0⟩ :: List.replicate 511 ⟨89, 7, 0x55⟩) = true :=
  ⟨rfl, rfl, rfl, by decide, frameStart_replicate 511 0x55⟩

theorem witness_SurplusBytesAreIgnored :
    let s := st .awaitingBreak 0 true 1000 50 buf23
    s.resetSeen = true ∧ s.syncState = .awaitingBreak ∧ s.chanCnt = 0#10 ∧
    quiet s.lastByteUs [⟨1044, 1, 0xEE⟩, ⟨1132, 1, 0x00⟩] = true := by decide

theorem witness_ConsumersDoNotDisturbSynchronizer :
    runOps [.byte 89 0 0, .poll 6001, .read 1, .byte 100 0 5] (st .awaitingBreak 0 true 0 1000 []) =
      some ({ st .receiving 2 false 100 1000 [(1, 5)] with rsp := some 0x000 }, [0x000, 0x100, 0x000, 0x000]) := by decide

theorem witness_StaleBytesAreNeverAnswered :
    sameToConsumer (st .awaitingBreak 0 false 0 1000 buf23) (st .awaitingBreak 0 false 0 1000 []) ∧
    runOps [.read 1, .byte 89 0 0, .read 1] (st .awaitingBreak 0 false 0 1000 buf23) =
      some ({ st .receiving 1 false 89 1000 buf23 with rsp := some 0x000 }, [0x000, 0x000, 0x000]) := by
  refine ⟨⟨⟨by simp [st], by simp [st]⟩, rfl⟩, by decide⟩

theorem witness_LastFrameTimeUnobservedWithoutFrame :
    State.reset.frameReceived = false ∧
    runOps [.conn 0, .poll 9999] State.reset = some ({ State.reset with rsp := some 0x000 }, [0x000, 0x000]) := by decide

theorem witness_PortAnswersInOrderPresented :
    (∀ c ∈ [(⟨false, true, 0x50000000000000000000, false⟩ : PortSignals), ⟨false, false, 0, true⟩], c.rst = false) ∧
    Port.run [⟨false, true, 0x50000000000000000000, false⟩, ⟨false, false, 0, true⟩] ⟨State.reset, none, 0⟩ =
      some (⟨{ State.reset with rsp := some 0x000 }, none, 2⟩, ⟨[0x50000000000000000000], [0x000]⟩) := by decide

theorem witness_PortResetAbandonsOperationInFlight :
    (⟨true, true, 0x50000000000000000000, true⟩ : PortSignals).rst = true := by decide

theorem witness_PseudoOperationsMakeTheirGaps :
    wellFormed (.gbyte 4294967295 0 255) = true ∧
    (wellFormed (.frame 89 88 0 0 (List.replicate 512 7)) = true ∧ 88 < 89 ∧ (List.replicate 512 7).length = 512) := by
  refine ⟨by decide, ?_, by decide, List.length_replicate⟩
  rw [wellFormed, List.all_replicate]
  decide

/-- The frame of `quietLine` at one time, of any length. -/
theorem quietLine_replicate (t n : Nat) (d : Byte) : quietLine t (List.replicate n ⟨t, d⟩) = true := by
  induction n with
  | zero => rfl
  | succ n ih => simp [List.replicate_succ, quietLine, ih]

theorem frameOnLine_replicate (n : Nat) (h : n = 512) : frameOnLine 0 (⟨89, 0⟩ :: List.replicate n ⟨89, 0x55⟩) = true := by
  rw [frameOnLine, List.length_replicate, quietLine_replicate, h]
  decide

/-- The bytes of operations that are all BYTE. -/
theorem bytesOf_replicate (u : Micros) (m : Millis) (d : Byte) (n : Nat) :
    bytesOf (List.replicate n (.byte u m d)) = List.replicate n ⟨u, m, d⟩ := by
  induction n with
  | zero => rfl
  | succ n ih => rw [List.replicate_succ, List.replicate_succ, ← ih]; rfl

/-- A FLAG is mixed in after the start code; the first gap is 89, the least that shows a break. -/
theorem witness_FrameOnLineIsReceived :
    let bs : List LineByte := ⟨89, 0⟩ :: List.replicate 512 ⟨89, 0x55⟩
    let ops : List Instr := .byte 89 5 0 :: .flag :: List.replicate 512 (.byte 89 7 0x55)
    dutyResetFirst State.reset ∧ State.reset.positionHasMeaning = true ∧ State.reset.lastByteUs = stamp 0 ∧
    frameOnLine 0 bs = true ∧ dutyOneBytePerReceived bs ops ∧ dutyArrivalTimes bs ops ∧ Instr.init ∉ ops := by
  have hb : bytesOf (.byte 89 5 0 :: .flag :: List.replicate 512 (.byte 89 7 0x55)) =
      ⟨89, 5, 0⟩ :: List.replicate 512 ⟨89, 7, 0x55⟩ := congrArg (_ :: ·) (bytesOf_replicate 89 7 0x55 512)
  refine ⟨rfl, rfl, rfl, ?_, ?_, ?_, ?_⟩
  · exact frameOnLine_replicate 512 rfl
  · rw [dutyOneBytePerReceived, hb, List.map_cons, List.map_cons, List.map_replicate, List.map_replicate]
  · rw [dutyArrivalTimes, hb, List.map_cons, List.map_cons, List.map_replicate, List.map_replicate]
    rfl
  · rw [List.mem_cons, List.mem_cons, List.mem_replicate]
    decide

/-- POLL every 3000 ms: at 6000 ms, within the stale window and one period, the loss is declared. -/
theorem witness_LossIsDeclaredWithinOnePollPeriod :
    let s := st .awaitingBreak 0 true 0 0 buf24
    let ps : List Presented := [⟨3000, .poll 3000⟩, ⟨3500, .flag⟩, ⟨6000, .poll 6000⟩, ⟨9000, .poll 9000⟩]
    s.frameReceived = true ∧ s.lastFrameMs = stamp 0 ∧ 0 ≤ 0 + 5000 ∧ dutyMillisFromOneClock ps ∧
    dutyPollPeriodic 3000 0 ps ∧ (∀ p ∈ ps, dutyWithinWrap 0 p.atMs) ∧
    runOps (ps.map Presented.op) s =
      some ({ st .awaitingBreak 0 false 0 0 buf24 with rsp := some 0x000 }, [0x000, 0x100, 0x100, 0x000]) ∧
    Instr.init ∉ ps.map Presented.op ∧
    (∀ p ∈ (ps.map Presented.op).zip [0x000#10, 0x100, 0x100, 0x000], isByte p.1 = true → p.2 = 0x000#10) ∧
    ∃ p ∈ ps, 0 + 5000 + 3000 < p.atMs := by
  refine ⟨rfl, rfl, by simp, ⟨by simp, ?_⟩, ?_, ?_, by decide, by decide, by decide, ⟨9000, .poll 9000⟩, by simp, by simp⟩
  · simp [millisOf, stamp]
  · simp [dutyPollPeriodic, isPoll]
  · simp [dutyWithinWrap]

end Sys2Proof.Tests
end

/-! PROOFS. The decoder and the encoder invert each other on legal words (R81), and a word that matches no row of the
opcode map does not decode (R77, R80). -/

namespace Sys2Proof

theorem acceptIf_ok_iff (b : Bool) (m : String) (i j : Instr) : acceptIf b m i = .ok j ↔ b = true ∧ j = i := by
  cases b <;> simp [acceptIf, eq_comm]

/-- Every way a word can decode: the opcode of a row, the reserved bits of its format 0, the operands from its fields. -/
theorem decode_ok_iff (w : OpWord) (i : Instr) :
    decode w = .ok i ↔
      (opcodeOf w = 0x1#4 ∧ reservedZeroB w = true ∧ i = .byte (tUsOf w) (tMsOf w) (dataOf w)) ∨
      (opcodeOf w = 0x2#4 ∧ reservedZeroR w = true ∧ i = .read (chanOf w)) ∨
      (opcodeOf w = 0x3#4 ∧ reservedZeroT w = true ∧ i = .conn (tMsOf w)) ∨
      (opcodeOf w = 0x4#4 ∧ reservedZeroT w = true ∧ i = .poll (tMsOf w)) ∨
      (opcodeOf w = 0x5#4 ∧ reservedZeroZ w = true ∧ i = .flag) ∨
      (opcodeOf w = 0x6#4 ∧ reservedZeroZ w = true ∧ i = .init) := by
  unfold decode
  split_ifs with h1 h2 h3 h4 h5 h6
  all_goals simp [acceptIf_ok_iff, *]

/-! ### The fields as conditions on the word's number -/

theorem opcodeOf_eq_iff (w : OpWord) (v : BitVec 4) : opcodeOf w = v ↔ w.toNat / 2 ^ 76 % 2 ^ 4 = v.toNat :=
  field_eq_iff 76 4 w v

theorem reservedZeroB_iff (w : OpWord) : reservedZeroB w = true ↔ w.toNat / 2 ^ 72 % 2 ^ 4 = 0 := by
  rw [reservedZeroB, beq_iff_eq, field_eq_iff]; rfl

theorem reservedZeroR_iff (w : OpWord) : reservedZeroR w = true ↔ w.toNat / 2 ^ 16 % 2 ^ 60 = 0 := by
  rw [reservedZeroR, beq_iff_eq, field_eq_iff]; rfl

theorem reservedZeroT_iff (w : OpWord) :
    reservedZeroT w = true ↔ w.toNat / 2 ^ 40 % 2 ^ 36 = 0 ∧ w.toNat % 2 ^ 8 = 0 := by
  rw [reservedZeroT, Bool.and_eq_true, beq_iff_eq, beq_iff_eq, field_eq_iff, field_eq_iff, Nat.pow_zero, Nat.div_one]
  rfl

theorem reservedZeroZ_iff (w : OpWord) : reservedZeroZ w = true ↔ w.toNat % 2 ^ 76 = 0 := by
  rw [reservedZeroZ, beq_iff_eq, field_eq_iff, Nat.pow_zero, Nat.div_one]; rfl

theorem tUsOf_toNat (w : OpWord) : (tUsOf w).toNat = w.toNat / 2 ^ 40 % 2 ^ 32 := toNat_field 40 32 w

theorem tMsOf_toNat (w : OpWord) : (tMsOf w).toNat = w.toNat / 2 ^ 8 % 2 ^ 32 := toNat_field 8 32 w

theorem dataOf_toNat (w : OpWord) : (dataOf w).toNat = w.toNat % 2 ^ 8 := by
  rw [dataOf, toNat_field, Nat.pow_zero, Nat.div_one]

theorem chanOf_toNat (w : OpWord) : (chanOf w).toNat = w.toNat % 2 ^ 16 := by
  rw [chanOf, toNat_field, Nat.pow_zero, Nat.div_one]

/-! ### The two round trips -/

theorem decode_encode_byte (u : Micros) (m : Millis) (d : Byte) :
    decode (encode (.byte u m d)) = .ok (.byte u m d) := by
  have hu := u.isLt; have hm := m.isLt; have hd := d.isLt
  refine (decode_ok_iff _ _).2 (.inl ⟨?_, ?_, ?_⟩)
  · rw [opcodeOf_eq_iff, encode_byte_toNat, BitVec.toNat_ofNat]; omega
  · rw [reservedZeroB_iff, encode_byte_toNat]; omega
  · rw [Instr.byte.injEq, BitVec.toNat_eq, BitVec.toNat_eq, BitVec.toNat_eq, tUsOf_toNat, tMsOf_toNat, dataOf_toNat,
      encode_byte_toNat]
    omega

theorem decode_encode_read (n : ChanNum) : decode (encode (.read n)) = .ok (.read n) := by
  have hn := n.isLt
  refine (decode_ok_iff _ _).2 (.inr (.inl ⟨?_, ?_, ?_⟩))
  · rw [opcodeOf_eq_iff, encode_read_toNat, BitVec.toNat_ofNat]; omega
  · rw [reservedZeroR_iff, encode_read_toNat]; omega
  · rw [Instr.read.injEq, BitVec.toNat_eq, chanOf_toNat, encode_read_toNat]; omega

theorem decode_encode_conn (m : Millis) : decode (encode (.conn m)) = .ok (.conn m) := by
  have hm := m.isLt
  refine (decode_ok_iff _ _).2 (.inr (.inr (.inl ⟨?_, ?_, ?_⟩)))
  · rw [opcodeOf_eq_iff, encode_conn_toNat, BitVec.toNat_ofNat]; omega
  · rw [reservedZeroT_iff, encode_conn_toNat]; omega
  · rw [Instr.conn.injEq, BitVec.toNat_eq, tMsOf_toNat, encode_conn_toNat]; omega

theorem decode_encode_poll (m : Millis) : decode (encode (.poll m)) = .ok (.poll m) := by
  have hm := m.isLt
  refine (decode_ok_iff _ _).2 (.inr (.inr (.inr (.inl ⟨?_, ?_, ?_⟩))))
  · rw [opcodeOf_eq_iff, encode_poll_toNat, BitVec.toNat_ofNat]; omega
  · rw [reservedZeroT_iff, encode_poll_toNat]; omega
  · rw [Instr.poll.injEq, BitVec.toNat_eq, tMsOf_toNat, encode_poll_toNat]; omega

/-- Encode-then-decode is the identity (R81). -/
theorem decode_encode (i : Instr) : decode (encode i) = .ok i := by
  cases i with
  | byte u m d => exact decode_encode_byte u m d
  | read n => exact decode_encode_read n
  | conn m => exact decode_encode_conn m
  | poll m => exact decode_encode_poll m
  | flag => rw [encode_flag_eq]; decide
  | init => rw [encode_init_eq]; decide

/-- Decode-then-encode is the identity on legal words (R81): opcode, reserved bits and operands are all of the word. -/
theorem encode_of_decode {w : OpWord} {i : Instr} (h : decode w = .ok i) : encode i = w := by
  have hw := w.isLt
  apply BitVec.eq_of_toNat_eq
  obtain ⟨ho, hz, rfl⟩ | ⟨ho, hz, rfl⟩ | ⟨ho, hz, rfl⟩ | ⟨ho, hz, rfl⟩ | ⟨ho, hz, rfl⟩ | ⟨ho, hz, rfl⟩ :=
    (decode_ok_iff w i).1 h
  all_goals rw [opcodeOf_eq_iff, BitVec.toNat_ofNat] at ho
  · rw [reservedZeroB_iff] at hz
    rw [encode_byte_toNat, tUsOf_toNat, tMsOf_toNat, dataOf_toNat]; omega
  · rw [reservedZeroR_iff] at hz
    rw [encode_read_toNat, chanOf_toNat]; omega
  · rw [reservedZeroT_iff] at hz
    rw [encode_conn_toNat, tMsOf_toNat]; omega
  · rw [reservedZeroT_iff] at hz
    rw [encode_poll_toNat, tMsOf_toNat]; omega
  · rw [reservedZeroZ_iff] at hz
    rw [encode_flag_eq, BitVec.toNat_ofNat]; omega
  · rw [reservedZeroZ_iff] at hz
    rw [encode_init_eq, BitVec.toNat_ofNat]; omega

/-! ### The rows of the opcode map -/

/-- The word of every operation matches the row of its mnemonic (R77). -/
theorem encode_matches_row (i : Instr) : ∃ r ∈ opcodeMap, r.mnemonic = mnemonicOf i ∧ r.accepts (encode i) = true := by
  cases i with
  | byte u m d => exact Laws.EncodedRow.byte u m d
  | read n => exact Laws.EncodedRow.read n
  | conn m => exact Laws.EncodedRow.conn m
  | poll m => exact Laws.EncodedRow.poll m
  | flag => exact Laws.EncodedRow.flag
  | init => exact Laws.EncodedRow.init

/-- A legal word is the word of its operation, so it matches that operation's row (R77, R81). -/
theorem decode_ok_matches_row {w : OpWord} {i : Instr} (h : decode w = .ok i) :
    ∃ r ∈ opcodeMap, r.mnemonic = mnemonicOf i ∧ r.accepts w = true :=
  encode_of_decode h ▸ encode_matches_row i

/-- A word that matches no row is rejected (R80). -/
theorem decode_error_of_no_row {w : OpWord} (h : ∀ r ∈ opcodeMap, r.accepts w = false) :
    ∃ e, decode w = .error e := by
  cases hd : decode w with
  | error e => exact ⟨e, rfl⟩
  | ok i =>
    obtain ⟨r, hr, _, ha⟩ := decode_ok_matches_row hd
    exact absurd ha (by simp [h r hr])

end Sys2Proof

/-! PROOFS. The step on what the host presents (R13, R80), a run over the port's queue (R59, R85), and the buffer
primitives (R51, R56). -/

namespace Sys2Proof.Machine

open Sys2Proof.Safety

/-! ### The step at a presented word -/

theorem performWord_of_decode_ok {w : OpWord} {i : Instr} (s : State) (h : decode w = .ok i) :
    performWord w s = exec i s := by
  rw [performWord, h]

theorem performWord_of_decode_error {w : OpWord} {e : DecodeError} (s : State) (h : decode w = .error e) :
    performWord w s = illegalWord s := by
  rw [performWord, h]

theorem step_present {s : State} {w : OpWord} {q : List PortInput} (h : s.inputs = .present w :: q) :
    step s = performWord w (s.setInputs q) := by
  rw [step, h]

/-- The step at the word of an operation performs that operation on what remains of the queue (R13, R81). -/
theorem step_setInputs_encode (i : Instr) (s : State) (q : List PortInput) :
    step (s.setInputs (.present (encode i) :: q)) = exec i (s.setInputs q) := by
  rw [step_present (setInputs_inputs s _)]
  exact performWord_of_decode_ok _ (decode_encode i)

/-- An illegal word where the state has a meaning (R80). -/
theorem illegalWord_of_meaning {s : State} (hr : s.resetSeen = true) (hm : s.positionHasMeaning = true) :
    illegalWord s = .next s.respondIllegal :=
  whenMeaning_of _ hr hm

/-! ### A run over the queue -/

/-- An operation takes nothing from the port: the step does. -/
theorem exec_next_inputs {i : Instr} {s t : State} (h : exec i s = .next t) : t.inputs = s.inputs := by
  have h' : exec i s = .next (t.setInputs s.inputs) := exec_setInputs s.inputs h
  rw [h] at h'
  injection h' with ht
  rw [ht, setInputs_inputs]

theorem runOps_inputs {is : List Instr} {s u : State} {rs : List RspWord} (h : runOps is s = some (u, rs)) :
    u.inputs = s.inputs := by
  induction is generalizing s rs with
  | nil => simp at h; rw [h.1]
  | cons i is ih =>
    obtain ⟨t, rs', hi, his, _⟩ := (runOps_cons_iff i is s u rs).1 h
    exact (ih his).trans (exec_next_inputs hi)

/-- What the host presents to have the operations performed in order (R59, R85). -/
def presentAll (is : List Instr) : List PortInput := is.map fun i => .present (encode i)

theorem presentAll_cons_append (i : Instr) (is : List Instr) (q : List PortInput) :
    presentAll (i :: is) ++ q = .present (encode i) :: (presentAll is ++ q) := rfl

/-- With the words of the operations put in front of the queue, each step of the machine takes one word and performs one
operation of the fold, with the same response (R59). -/
theorem runSteps_presentAll {is : List Instr} {s u : State} {rs : List RspWord} (h : runOps is s = some (u, rs)) :
    runSteps is.length (s.setInputs (presentAll is ++ s.inputs)) = some (u, rs) := by
  induction is generalizing s rs with
  | nil => exact h
  | cons i is ih =>
    obtain ⟨t, rs', hi, his, rfl⟩ := (runOps_cons_iff i is s u rs).1 h
    obtain ⟨r, hr⟩ := exec_next_rsp hi
    have hstep : step (s.setInputs (presentAll (i :: is) ++ s.inputs)) =
        .next (t.setInputs (presentAll is ++ t.inputs)) := by
      rw [presentAll_cons_append, step_setInputs_encode, exec_next_inputs hi]
      exact exec_setInputs _ hi
    have hrun := runSteps_succ hstep (ih his)
    rw [setInputs_rsp, hr] at hrun
    rw [hr]
    exact hrun

/-! ### The buffer primitives -/

theorem memRead_setSlot_same (s : State) {i : Nat} (v : Byte) (h : i < Config.nslots) :
    memRead (s.setSlot i v) i = .ok v := by
  rw [memRead_ok _ h, setSlot_buf, memGet_memSet_same]

/-- Every other slot reads as before; a slot that does not exist faults as before (R51, R56). -/
theorem memRead_setSlot_other (s : State) {i j : Nat} (v : Byte) (h : j ≠ i) :
    memRead (s.setSlot i v) j = memRead s j := by
  rw [memRead, memRead, setSlot_buf, memGet_memSet_other _ _ h]

theorem memRead_noSuchSlot (s : State) {i : Nat} (h : Config.nslots ≤ i) : memRead s i = .error (.noSuchSlot i) :=
  if_neg (Nat.not_lt.2 h)

theorem memWrite_noSuchSlot (s : State) {i : Nat} (v : Byte) (h : Config.nslots ≤ i) :
    memWrite s i v = .error (.noSuchSlot i) :=
  if_neg (Nat.not_lt.2 h)

/-! ### The obligations -/

/-- Settles O10, by induction over the operations (`runSteps_presentAll`). -/
theorem portQueueRunIsFoldOfOperations : Obligations.PortQueueRunIsFoldOfOperations := by
  intro ops q s u rs h
  exact ⟨runSteps_presentAll h, runOps_inputs h, runOps_length h⟩

/-- Settles O11: the state written is `s.setSlot i v`. -/
theorem memWriteReplacesOneSlot : Obligations.MemWriteReplacesOneSlot := by
  intro s i v
  constructor
  · intro hi
    exact ⟨s.setSlot i v, memWrite_ok s v hi, memRead_setSlot_same s v hi, fun j hj => memRead_setSlot_other s v hj, rfl⟩
  · intro hi
    exact ⟨memWrite_noSuchSlot s v hi, memRead_noSuchSlot s hi⟩

/-- Settles O6. -/
theorem stepPerformsPresentedOperation : Obligations.StepPerformsPresentedOperation := by
  intro s w i q hq hd
  exact (step_present hq).trans (performWord_of_decode_ok _ hd)

/-- Settles O7: a word that matches no row does not decode, and the two refusals stand aside. -/
theorem illegalWordIsAnsweredIll : Obligations.IllegalWordIsAnsweredIll := by
  intro s w q hr hm hq hrow
  obtain ⟨e, he⟩ := decode_error_of_no_row hrow
  calc step s = performWord w (s.setInputs q) := step_present hq
    _ = illegalWord (s.setInputs q) := performWord_of_decode_error _ he
    _ = .next (s.setInputs q).respondIllegal := illegalWord_of_meaning hr hm
    _ = .next { s with inputs := q, rsp := some 0x200#10 } := by rw [State.respondIllegal, rspWord_illegal]; rfl

end Sys2Proof.Machine

/-! PROOFS. One equation for BYTE: the whole next state from the slot it stores to (`byteSlot`), whether it completes a
frame (`byteCompletes`) and the position it leaves (R100, R112). Its frame, the access matrix and the two events are read
off that equation (R32, R180). -/

namespace Sys2Proof.Machine

open Sys2Proof.Safety

/-! ### The slot a BYTE stores to -/

/-- The buffer after a store of `v` to slot `o`, if there is one. -/
def storeAt (m : Memory) (v : Byte) : Option Nat → Memory
  | none => m
  | some a => memSet m a v

theorem memGet_storeAt (m : Memory) (v : Byte) (o : Option Nat) (a : Nat) :
    memGet (storeAt m v o) a = if o = some a then v else memGet m a := by
  cases o with
  | none => simp [storeAt]
  | some b => simp [storeAt, memGet_memSet, eq_comm]

section
variable {tUs : Micros} {data : Byte} {s : State}

theorem showsBreak_eq_false_of_not_candidate (h : ¬isCandidate tUs s) :
    showsBreak (gap tUs s.lastByteUs) = false := by
  simpa using fun hb => h (.inl hb)

theorem byteSlot_candidate (h : isCandidate tUs s) :
    byteSlot tUs data s = if data = 0x00#8 then some 0 else none := by
  rcases h with hb | ⟨hy, hc⟩
  · simp [byteSlot, hb, Config.scNull]
  · simp [byteSlot, hy, hc, Config.scNull]

theorem byteSlot_discard (hb : showsBreak (gap tUs s.lastByteUs) = false) (hy : s.syncState = .awaitingBreak) :
    byteSlot tUs data s = none := by
  simp [byteSlot, hb, hy]

theorem byteSlot_channel (hb : showsBreak (gap tUs s.lastByteUs) = false) (hy : s.syncState = .receiving)
    (hc : s.chanCnt ≠ 0#10) : byteSlot tUs data s = some s.chanCnt.toNat := by
  simp [byteSlot, hb, hy, hc, slotOfCount]

/-- A BYTE stores a null start code to slot 0, or a channel byte to slot `chan_cnt`, and nothing else (R57). -/
theorem byteSlot_eq_some_cases {a : Nat} (h : byteSlot tUs data s = some a) :
    (data = 0x00#8 ∧ a = 0) ∨ (s.syncState = .receiving ∧ s.chanCnt ≠ 0#10 ∧ a = s.chanCnt.toNat) := by
  by_cases hcand : isCandidate tUs s
  · rw [byteSlot_candidate hcand] at h
    split at h
    · next hd => exact .inl ⟨hd, (Option.some.inj h).symm⟩
    · cases h
  · have hb := showsBreak_eq_false_of_not_candidate hcand
    rcases hy : s.syncState with _ | _
    · rw [byteSlot_discard hb hy] at h
      cases h
    · have hc : s.chanCnt ≠ 0#10 := fun hc => hcand (.inr ⟨hy, hc⟩)
      rw [byteSlot_channel hb hy hc] at h
      exact .inr ⟨rfl, hc, (Option.some.inj h).symm⟩

/-- At a position with a meaning the slot exists (R51, R56). -/
theorem byteSlot_lt {a : Nat} (hm : s.positionHasMeaning = true) (h : byteSlot tUs data s = some a) :
    a < Config.nslots := by
  rcases byteSlot_eq_some_cases h with ⟨_, rfl⟩ | ⟨hy, _, rfl⟩
  · decide
  · exact Nat.lt_succ_of_le (chanCnt_le_of_meaning hm hy)

/-- Slot 0 takes no byte but the null start code (R30). -/
theorem data_eq_zero_of_byteSlot_zero (h : byteSlot tUs data s = some 0) : data = 0x00#8 := by
  rcases byteSlot_eq_some_cases h with ⟨hd, _⟩ | ⟨_, hc, h0⟩
  · exact hd
  · exact absurd (BitVec.eq_of_toNat_eq h0.symm) hc

/-! ### Completion, and the position a BYTE leaves -/

theorem byteCompletes_iff : byteCompletes tUs s = true ↔
    showsBreak (gap tUs s.lastByteUs) = false ∧ s.syncState = .receiving ∧ s.chanCnt = 512#10 := by
  simp [byteCompletes, and_assoc]

theorem byteCompletes_eq_false_iff : byteCompletes tUs s = false ↔
    ¬(showsBreak (gap tUs s.lastByteUs) = false ∧ s.syncState = .receiving ∧ s.chanCnt = 512#10) := by
  rw [← byteCompletes_iff, Bool.not_eq_true]

theorem byteCompletes_candidate (h : isCandidate tUs s) : byteCompletes tUs s = false := by
  refine byteCompletes_eq_false_iff.2 fun ⟨hb, _, hc⟩ => ?_
  rcases h with hb' | ⟨_, hc'⟩
  · simp [hb] at hb'
  · simp [hc] at hc'

theorem byteSlot_completing (h : byteCompletes tUs s = true) : byteSlot tUs data s = some 512 := by
  obtain ⟨hb, hy, hc⟩ := byteCompletes_iff.1 h
  rw [byteSlot_channel hb hy (by simp [hc]), hc]
  rfl

end

/-- The position a BYTE leaves (R104 to R109): a candidate starts a frame or is rejected; else a channel byte moves the count
on, the last of them ends the frame, and in `AwaitingBreak` nothing moves. -/
def bytePosition (tUs : Micros) (data : Byte) (s : State) : SyncState × Count :=
  if isCandidate tUs s then (if data = 0x00#8 then (.receiving, 1#10) else (.awaitingBreak, 0#10))
  else match s.syncState with
    | .awaitingBreak => (.awaitingBreak, s.chanCnt)
    | .receiving => if s.chanCnt = 512#10 then (.awaitingBreak, 0#10) else (.receiving, s.chanCnt + 1#10)

section
variable {tUs : Micros} {data : Byte} {s : State}

theorem bytePosition_candidate (h : isCandidate tUs s) :
    bytePosition tUs data s = if data = 0x00#8 then (.receiving, 1#10) else (.awaitingBreak, 0#10) :=
  if_pos h

theorem not_isCandidate_of_awaitingBreak (hb : showsBreak (gap tUs s.lastByteUs) = false)
    (hy : s.syncState = .awaitingBreak) : ¬isCandidate tUs s := by
  simp [isCandidate, hb, hy]

theorem not_isCandidate_of_chanCnt (hb : showsBreak (gap tUs s.lastByteUs) = false) (hc : s.chanCnt ≠ 0#10) :
    ¬isCandidate tUs s := by
  simp [isCandidate, hb, hc]

theorem bytePosition_discard (hb : showsBreak (gap tUs s.lastByteUs) = false) (hy : s.syncState = .awaitingBreak) :
    bytePosition tUs data s = (.awaitingBreak, s.chanCnt) := by
  rw [bytePosition, if_neg (not_isCandidate_of_awaitingBreak hb hy), hy]

theorem bytePosition_channel (hb : showsBreak (gap tUs s.lastByteUs) = false) (hy : s.syncState = .receiving)
    (hc : s.chanCnt ≠ 0#10) : bytePosition tUs data s =
      if s.chanCnt = 512#10 then (.awaitingBreak, 0#10) else (.receiving, s.chanCnt + 1#10) := by
  rw [bytePosition, if_neg (not_isCandidate_of_chanCnt hb hc), hy]

/-- The positions a BYTE can leave, from a position with a meaning (R23): the two fixed ones, or one channel further. -/
theorem bytePosition_cases (tUs : Micros) (data : Byte) (hm : s.positionHasMeaning = true) :
    bytePosition tUs data s = (.awaitingBreak, 0#10) ∨ bytePosition tUs data s = (.receiving, 1#10) ∨
    (s.syncState = .receiving ∧ s.chanCnt.toNat < 512 ∧ byteSlot tUs data s = some s.chanCnt.toNat ∧
      bytePosition tUs data s = (.receiving, s.chanCnt + 1#10)) := by
  by_cases hcand : isCandidate tUs s
  · rw [bytePosition_candidate hcand]
    split
    · exact .inr (.inl rfl)
    · exact .inl rfl
  · have hb := showsBreak_eq_false_of_not_candidate hcand
    rcases (positionHasMeaning_iff s).1 hm with ⟨hy, hc⟩ | ⟨hy, hle⟩
    · rw [bytePosition_discard hb hy, hc]
      exact .inl rfl
    · have hc : s.chanCnt ≠ 0#10 := fun hc => hcand (.inr ⟨hy, hc⟩)
      rw [bytePosition_channel hb hy hc]
      split
      · exact .inl rfl
      · next h512 =>
        have hne : s.chanCnt.toNat ≠ 512 := fun h => h512 (BitVec.eq_of_toNat_eq h)
        exact .inr (.inr ⟨hy, by omega, byteSlot_channel hb hy hc, rfl⟩)

end

/-! ### The next state of a BYTE -/

/-- The state after a BYTE that is given a meaning. -/
def afterByte (tUs : Micros) (tMs : Millis) (data : Byte) (s : State) : State where
  syncState := (bytePosition tUs data s).1
  chanCnt := (bytePosition tUs data s).2
  lastByteUs := tUs
  lastFrameMs := if byteCompletes tUs s then tMs else s.lastFrameMs
  frameReceived := s.frameReceived || byteCompletes tUs s
  buf := storeAt s.buf data (byteSlot tUs data s)
  resetSeen := s.resetSeen
  inputs := s.inputs
  rsp := some (if byteCompletes tUs s then 0x100#10 else 0x000#10)

section
variable {tUs : Micros} {tMs : Millis} {data : Byte} {s : State}

@[simp] theorem afterByte_syncState : (afterByte tUs tMs data s).syncState = (bytePosition tUs data s).1 := rfl
@[simp] theorem afterByte_chanCnt : (afterByte tUs tMs data s).chanCnt = (bytePosition tUs data s).2 := rfl
@[simp] theorem afterByte_frameReceived :
    (afterByte tUs tMs data s).frameReceived = (s.frameReceived || byteCompletes tUs s) := rfl
@[simp] theorem afterByte_buf : (afterByte tUs tMs data s).buf = storeAt s.buf data (byteSlot tUs data s) := rfl

theorem afterByte_startCode (hcand : isCandidate tUs s) (hd : data = 0x00#8) : afterByte tUs tMs data s =
    (((s.setLastByteUs tUs).setSlot 0 data).setPosition .receiving 1#10).respond false 0#8 := by
  rw [State.respond, rspWord_flag_false]
  simp [afterByte, bytePosition_candidate hcand, byteSlot_candidate hcand, byteCompletes_candidate hcand, hd, storeAt]

theorem afterByte_rejected (hcand : isCandidate tUs s) (hd : data ≠ 0x00#8) : afterByte tUs tMs data s =
    ((s.setLastByteUs tUs).setPosition .awaitingBreak 0#10).respond false 0#8 := by
  rw [State.respond, rspWord_flag_false]
  simp [afterByte, bytePosition_candidate hcand, byteSlot_candidate hcand, byteCompletes_candidate hcand, hd, storeAt]

theorem afterByte_discarded (hb : showsBreak (gap tUs s.lastByteUs) = false) (hy : s.syncState = .awaitingBreak) :
    afterByte tUs tMs data s = (s.setLastByteUs tUs).respond false 0#8 := by
  have hnc : byteCompletes tUs s = false := byteCompletes_eq_false_iff.2 (by simp [hy])
  rw [State.respond, rspWord_flag_false]
  simp [afterByte, bytePosition_discard hb hy, byteSlot_discard hb hy, hnc, hy, storeAt]

theorem afterByte_channel (hb : showsBreak (gap tUs s.lastByteUs) = false) (hy : s.syncState = .receiving)
    (hc : s.chanCnt ≠ 0#10) (hlt : s.chanCnt.toNat < 512) : afterByte tUs tMs data s =
      (((s.setLastByteUs tUs).setSlot s.chanCnt.toNat data).setPosition .receiving (s.chanCnt + 1#10)).respond
        false 0#8 := by
  have h512 : s.chanCnt ≠ 512#10 := fun h => by simp [h] at hlt
  have hnc : byteCompletes tUs s = false := byteCompletes_eq_false_iff.2 (by simp [h512])
  rw [State.respond, rspWord_flag_false]
  simp [afterByte, bytePosition_channel hb hy hc, byteSlot_channel hb hy hc, hnc, h512, storeAt]

theorem afterByte_completing (hb : showsBreak (gap tUs s.lastByteUs) = false) (hy : s.syncState = .receiving)
    (hc : s.chanCnt = 512#10) : afterByte tUs tMs data s =
      (completeFrame ((s.setLastByteUs tUs).setSlot 512 data) tMs).respond true 0#8 := by
  have hcomp : byteCompletes tUs s = true := byteCompletes_iff.2 ⟨hb, hy, hc⟩
  rw [State.respond, rspWord_flag_true]
  simp [afterByte, bytePosition_channel hb hy (by simp [hc] : s.chanCnt ≠ 0#10), byteSlot_completing hcomp, hcomp, hc,
    storeAt]

end

/-- BYTE takes a next state exactly after reset at a position with a meaning, and that state is `afterByte` (R112). -/
theorem execByte_next_iff_afterByte (tUs : Micros) (tMs : Millis) (data : Byte) (s t : State) :
    execByte tUs tMs data s = .next t ↔
      (s.resetSeen = true ∧ s.positionHasMeaning = true) ∧ t = afterByte tUs tMs data s := by
  have path : ∀ t, execByte tUs tMs data s = .next t → t = afterByte tUs tMs data s := by
    intro t h
    obtain ⟨_, _, ⟨hc, hd, rfl⟩ | ⟨hc, hd, rfl⟩ | ⟨hb, hy, rfl⟩ | ⟨hb, hy, hc, hlt, rfl⟩ | ⟨hb, hy, hc, rfl⟩⟩ :=
      execByte_next_cases tUs tMs data h
    · exact (afterByte_startCode hc hd).symm
    · exact (afterByte_rejected hc hd).symm
    · exact (afterByte_discarded hb hy).symm
    · exact (afterByte_channel hb hy hc hlt).symm
    · exact (afterByte_completing hb hy hc).symm
  constructor
  · intro h
    obtain ⟨hr, hm, _⟩ := execByte_next_cases tUs tMs data h
    exact ⟨⟨hr, hm⟩, path t h⟩
  · rintro ⟨⟨hr, hm⟩, rfl⟩
    obtain ⟨u, hu⟩ := execByte_answers tUs tMs data hr hm
    rw [hu, path u hu]

/-! ### The access matrix and the events -/

/-- All that an operation can do, with the next state of a BYTE written out by `afterByte`. -/
theorem exec_next_cases_afterByte {i : Instr} {s t : State} (h : exec i s = .next t) :
    (∃ u m d, i = .byte u m d ∧ (s.resetSeen = true ∧ s.positionHasMeaning = true) ∧ t = afterByte u m d s) ∨
    (i = .init ∧ t = (resetBlock s).respond false 0#8) ∨
    ((s.resetSeen = true ∧ s.positionHasMeaning = true) ∧ writesSynchronizer i = false ∧
      ((∃ f v, t = s.respond f v) ∨
       (∃ m, i = .poll m ∧ s.frameReceived = true ∧ t = s.clearReceived.respond true 0#8))) :=
  (exec_next_cases h).imp_left fun ⟨u, m, d, hi, hb⟩ =>
    ⟨u, m, d, hi, (execByte_next_iff_afterByte u m d s t).1 hb⟩

/-- Settles O17: the frame of BYTE is read off `afterByte`. -/
theorem byteFrameIsOneSlotAndNamedRegisters : Obligations.ByteFrameIsOneSlotAndNamedRegisters := by
  intro s t tUs tMs data h
  obtain ⟨⟨_, hm⟩, rfl⟩ := (execByte_next_iff_afterByte tUs tMs data s t).1 h
  refine ⟨rfl, rfl, rfl, fun a ha => ⟨byteSlot_lt hm ha, ?_⟩, fun a ha => ?_, rfl, rfl, rfl⟩
  · exact (memGet_storeAt _ _ _ _).trans (if_pos ha)
  · exact (memGet_storeAt _ _ _ _).trans (if_neg ha)

/-- Settles O28, by the four things an operation can do. -/
theorem accessMatrixIsKept : Obligations.AccessMatrixIsKept := by
  intro i s t h
  obtain ⟨u, m, d, rfl, _, rfl⟩ | ⟨rfl, rfl⟩ | ⟨_, hw, ⟨f, v, rfl⟩ | ⟨m, rfl, hf, rfl⟩⟩ := exec_next_cases_afterByte h
  · cases hc : byteCompletes u s <;> simp [afterByte, hc, writesSynchronizer, isByte]
  · simp [writesSynchronizer]
  · exact ⟨fun _ => rfl, fun hl => absurd rfl hl, fun h0 h1 => absurd (h0.symm.trans h1) Bool.false_ne_true,
      fun h1 h0 => absurd (h0.symm.trans h1) Bool.false_ne_true, fun hs => absurd rfl hs, rfl⟩
  · exact ⟨fun _ => rfl, fun hl => absurd rfl hl, fun h0 _ => absurd (h0.symm.trans hf) Bool.false_ne_true,
      fun _ _ => .inr ⟨⟨m, rfl⟩, congrArg some rspWord_flag_true⟩, fun hs => absurd rfl hs, rfl⟩

/-- Settles O34: a BYTE answers `byteCompletes`, and a POLL answers 1 only where it clears the flag. -/
theorem eventsAreCompletionAndLoss : Obligations.EventsAreCompletionAndLoss := by
  intro i s t r h hr
  cases i with
  | byte u m d =>
    obtain ⟨_, rfl⟩ := (execByte_next_iff_afterByte u m d s t).1 h
    obtain rfl : (if byteCompletes u s then 0x100#10 else 0x000#10) = r := Option.some.inj hr
    cases hc : byteCompletes u s <;> simp [eventOf, hc, rspFlag]
  | poll m =>
    obtain ⟨_, ⟨hf, _, rfl⟩ | ⟨_, rfl⟩⟩ := (execPoll_next_iff m s t).1 h
    · obtain rfl : 0x100#10 = r := by simpa using hr
      simp [eventOf, rspFlag, hf]
    · obtain rfl : 0x000#10 = r := by simpa using hr
      simp [eventOf, rspFlag]
  | read n => simp [eventOf]
  | conn m => simp [eventOf]
  | flag => simp [eventOf]
  | init => simp [eventOf]

end Sys2Proof.Machine

/-! PROOFS. Reset and INIT (R36, R160, R161), the refusals that stand before every word but INIT's (R23, R173, R202), and
the invariant of the states between steps (R23, R30). -/

namespace Sys2Proof.Machine

open Sys2Proof.Safety

/-! ### What one step can do -/

theorem step_idle {s : State} (h : s.inputs = []) : step s = .next s.noResponse := by
  rw [step, h]

theorem step_rst {s : State} {q : List PortInput} (h : s.inputs = .rst :: q) :
    step s = .next (hardwareReset (s.setInputs q)) := by
  rw [step, h]

/-- All that a word can do: the operation it spells, or the answer to an illegal word (R13, R80). -/
theorem performWord_next_cases {w : OpWord} {s t : State} (h : performWord w s = .next t) :
    (∃ i, decode w = .ok i ∧ exec i s = .next t) ∨
    (∃ e, decode w = .error e ∧ (s.resetSeen = true ∧ s.positionHasMeaning = true) ∧ t = s.respondIllegal) := by
  rcases hd : decode w with e | i
  · rw [performWord_of_decode_error s hd] at h
    obtain ⟨hrm, ht⟩ := (whenMeaning_next_iff _ _ _).1 h
    exact .inr ⟨e, rfl, hrm, (Host.Outcome.next.inj ht).symm⟩
  · rw [performWord_of_decode_ok s hd] at h
    exact .inl ⟨i, rfl, h⟩

/-- All that a step can do: nothing presented, a reset, or a presented word (R13, R161). -/
theorem step_next_cases {s t : State} (h : step s = .next t) :
    (s.inputs = [] ∧ t = s.noResponse) ∨
    (∃ q, s.inputs = .rst :: q ∧ t = hardwareReset (s.setInputs q)) ∨
    (∃ w q, s.inputs = .present w :: q ∧ performWord w (s.setInputs q) = .next t) := by
  rcases hq : s.inputs with _ | ⟨_ | _, q⟩
  · rw [step_idle hq] at h
    exact .inl ⟨rfl, (Host.Outcome.next.inj h).symm⟩
  · rw [step_present hq] at h
    exact .inr (.inr ⟨_, q, rfl, h⟩)
  · rw [step_rst hq] at h
    exact .inr (.inl ⟨q, rfl, (Host.Outcome.next.inj h).symm⟩)

/-! ### Reset and INIT -/

theorem hardwareReset_eq (s : State) : hardwareReset s = { State.reset with inputs := s.inputs } := rfl

theorem resetBlock_respond_eq (s : State) :
    (resetBlock s).respond false 0#8 = { State.reset with inputs := s.inputs, rsp := some 0x000#10 } := by
  rw [State.respond, rspWord_flag_false]
  rfl

/-- INIT from any state, also before the first reset (R160). -/
theorem exec_init (s : State) :
    exec .init s = .next { State.reset with inputs := s.inputs, rsp := some 0x000#10 } :=
  congrArg Host.Outcome.next (resetBlock_respond_eq s)

/-- While no frame is received, READ, CONN, POLL and FLAG all answer 0 and change nothing (R131, R135, R201). -/
theorem exec_consumer_without_frame {i : Instr} {s : State} (hi : writesSynchronizer i = false)
    (hm : s.resetSeen = true ∧ s.positionHasMeaning = true) (hf : s.frameReceived = false) :
    exec i s = .next (s.respond false 0#8) := by
  cases i with
  | byte u m d => cases hi
  | read n => exact (execRead_next_iff n s _).2 ⟨hm, by simp [hf]⟩
  | conn m => exact (execConn_next_iff m s _).2 ⟨hm, by simp [hf]⟩
  | poll m => exact (execPoll_next_iff m s _).2 ⟨hm, .inr ⟨by simp [hf], rfl⟩⟩
  | flag => exact (execFlag_next_iff s _).2 ⟨hm, by simp [hf]⟩
  | init => cases hi

/-- Settles O8. -/
theorem resetInputEqualsInitWithoutResponse : Obligations.ResetInputEqualsInitWithoutResponse := by
  intro s q hq
  exact ⟨(step_rst hq).trans (congrArg _ (hardwareReset_eq _)), exec_init _⟩

/-- Settles O27: after INIT `frame_received` is 0, so every consumer's operation answers `0x000` again. -/
theorem initLeavesTheOneInitialState : Obligations.InitLeavesTheOneInitialState := by
  refine ⟨decode_encode .init, fun s => ?_⟩
  have consumer : ∀ i, writesSynchronizer i = false →
      exec i { State.reset with inputs := s.inputs, rsp := some 0x000#10 } =
        .next { State.reset with inputs := s.inputs, rsp := some 0x000#10 } := by
    intro i hi
    rw [exec_consumer_without_frame hi ⟨rfl, rfl⟩ rfl, State.respond, rspWord_flag_false]
  exact ⟨_, exec_init s, exec_init _, consumer _ rfl, fun n => consumer _ rfl, fun m => consumer _ rfl,
    fun m => consumer _ rfl, rfl, rfl, rfl, rfl, rfl, memGet_nil, nil_wf, rfl, rfl, rfl⟩

/-! ### The refusals -/

/-- Every operation but INIT stands behind the two refusals (R173). -/
theorem exec_eq_whenMeaning {i : Instr} (s : State) (hi : i ≠ .init) : ∃ k, exec i s = whenMeaning s k := by
  cases i with
  | byte u m d => exact ⟨_, rfl⟩
  | read n => exact ⟨_, rfl⟩
  | conn m => exact ⟨_, rfl⟩
  | poll m => exact ⟨_, rfl⟩
  | flag => exact ⟨_, rfl⟩
  | init => exact absurd rfl hi

/-- A word that matches no row stands behind the two refusals, too (R173). -/
theorem step_illegalWord {s : State} {w : OpWord} {q : List PortInput} (hq : s.inputs = .present w :: q)
    (hrow : ∀ r ∈ opcodeMap, r.accepts w = false) :
    step s = whenMeaning (s.setInputs q) (.next (s.setInputs q).respondIllegal) := by
  obtain ⟨e, he⟩ := decode_error_of_no_row hrow
  exact (step_present hq).trans (performWord_of_decode_error _ he)

/-- The pairs of R23 without a meaning. -/
theorem positionHasMeaning_eq_false {s : State}
    (h : s.syncState = .awaitingBreak ∧ s.chanCnt ≠ 0#10 ∨ s.syncState = .receiving ∧ 512#10 < s.chanCnt) :
    s.positionHasMeaning = false := by
  rw [← Bool.not_eq_true, positionHasMeaning_iff]
  rcases h with ⟨hy, hc⟩ | ⟨hy, hc⟩
  · simp [hy, hc]
  · have hlt : 512 < s.chanCnt.toNat := hc
    simp [hy, hlt]

/-- Settles O22. -/
theorem positionWithoutMeaningIsRefused : Obligations.PositionWithoutMeaningIsRefused := by
  intro s hr hpos
  have hm := positionHasMeaning_eq_false hpos
  refine ⟨fun i hi => ?_, fun w q hq hrow => ?_⟩
  · obtain ⟨k, hk⟩ := exec_eq_whenMeaning s hi
    exact hk.trans (whenMeaning_positionWithoutMeaning k hr hm)
  · exact (step_illegalWord hq hrow).trans (whenMeaning_positionWithoutMeaning _ hr hm)

/-! ### The invariant -/

/-- A BYTE leaves a reachable pair from any position with a meaning (R23). -/
theorem afterByte_positionReachable (tUs : Micros) (tMs : Millis) (data : Byte) {s : State}
    (hm : s.positionHasMeaning = true) : positionReachable (afterByte tUs tMs data s) = true := by
  rcases bytePosition_cases tUs data hm with hp | hp | ⟨_, hlt, _, hp⟩
  · simp [positionReachable, hp]
  · simp [positionReachable, hp, Config.nchan]
  · simp [positionReachable, hp, Config.nchan]
    omega

/-- A BYTE keeps the canonical form: the one slot it stores to exists (R51, R56). -/
theorem afterByte_buf_wf (tUs : Micros) (tMs : Millis) (data : Byte) {s : State}
    (hm : s.positionHasMeaning = true) (hwf : s.buf.wf = true) : (afterByte tUs tMs data s).buf.wf = true := by
  rw [afterByte_buf]
  rcases ha : byteSlot tUs data s with _ | a
  · exact hwf
  · exact memSet_wf data hwf (byteSlot_lt hm ha)

/-- A BYTE stores nothing but `0x00` to slot 0 (R30). -/
theorem afterByte_slot_zero (tUs : Micros) (tMs : Millis) (data : Byte) {s : State} (h0 : memGet s.buf 0 = 0x00#8) :
    memGet (afterByte tUs tMs data s).buf 0 = 0x00#8 := by
  rw [afterByte_buf, memGet_storeAt]
  split
  · next h => exact data_eq_zero_of_byteSlot_zero h
  · exact h0

/-- An operation keeps the invariant, from every state that meets it. -/
theorem exec_keeps_inv {i : Instr} {s t : State} (hs : Inv s) (h : exec i s = .next t) : Inv t := by
  obtain ⟨u, m, d, rfl, ⟨hr, hm⟩, rfl⟩ | ⟨rfl, rfl⟩ | ⟨_, _, ⟨f, v, rfl⟩ | ⟨m, rfl, _, rfl⟩⟩ :=
    exec_next_cases_afterByte h
  · obtain ⟨_, _, hwf, h0⟩ := hs
    exact ⟨hr, afterByte_positionReachable u m d hm, afterByte_buf_wf u m d hm hwf, afterByte_slot_zero u m d h0⟩
  · exact ⟨rfl, rfl, nil_wf, memGet_nil 0⟩
  · exact hs
  · exact hs

/-- Settles O40. -/
theorem resetMeetsInvariant : Obligations.ResetMeetsInvariant :=
  ⟨rfl, rfl, nil_wf, memGet_nil 0⟩

/-- Settles O39. What is presented at the port and the last response have no part in the invariant, so only an operation
(`exec_keeps_inv`) and the reset touch it. -/
theorem stepKeepsInvariant : Obligations.StepKeepsInvariant := by
  intro s t hs h
  obtain ⟨_, rfl⟩ | ⟨q, _, rfl⟩ | ⟨w, q, _, h⟩ := step_next_cases h
  · exact hs
  · exact resetMeetsInvariant
  · have hq : Inv (s.setInputs q) := hs
    obtain ⟨i, _, h⟩ | ⟨e, _, _, rfl⟩ := performWord_next_cases h
    · exact exec_keeps_inv hq h
    · exact hq

end Sys2Proof.Machine

/-! PROOFS. Noninterference over runs: consumers' operations and the synchronizer (R60), bytes no READ may answer from
(R131), and the value of `last_frame_ms` while no frame is received (R27). -/

namespace Sys2Proof.Machine

open Sys2Proof.Safety

/-- A relation that every operation keeps, with equal responses, is kept by every run, with equal responses. -/
theorem runOps_simulation {R : State → State → Prop}
    (hstep : ∀ (i : Instr) (s t u : State), R s t → exec i s = .next u → ∃ v, exec i t = .next v ∧ v.rsp = u.rsp ∧ R u v)
    {is : List Instr} {s t u : State} {rs : List RspWord} (hR : R s t) (h : runOps is s = some (u, rs)) :
    ∃ v, runOps is t = some (v, rs) ∧ R u v := by
  induction is generalizing s t rs with
  | nil =>
    obtain ⟨rfl, rfl⟩ : s = u ∧ [] = rs := by simpa using h
    exact ⟨t, rfl, hR⟩
  | cons i is ih =>
    obtain ⟨s', rs', hs', hrun, rfl⟩ := (runOps_cons_iff i is s u rs).1 h
    obtain ⟨t', ht', hrsp, hR'⟩ := hstep i s t s' hR hs'
    obtain ⟨v, hv, hRv⟩ := ih hR' hrun
    exact ⟨v, (runOps_cons_iff i is t v _).2 ⟨t', rs', ht', hv, by rw [hrsp]⟩, hRv⟩

/-! ### The synchronizer does not see the consumers (R60) -/

theorem sameSynchronizer_iff (s t : State) :
    sameSynchronizer s t ↔ ∃ f x, t = { s with frameReceived := f, rsp := x } := by
  constructor
  · intro h
    obtain ⟨y, c, lb, lf, fr, b, r, q, x⟩ := s
    obtain ⟨y', c', lb', lf', fr', b', r', q', x'⟩ := t
    simp only [sameSynchronizer, State.mk.injEq] at h
    obtain ⟨rfl, rfl, rfl, rfl, _, rfl, rfl, rfl, _⟩ := h
    exact ⟨fr', x', rfl⟩
  · rintro ⟨f, x, rfl⟩
    rfl

/-- A consumer's operation leaves the synchronizer's part of the state (R32). -/
theorem sameSynchronizer_of_consumer {i : Instr} {s t : State} (hi : writesSynchronizer i = false)
    (h : exec i s = .next t) : sameSynchronizer t s := by
  obtain ⟨hframe, _⟩ := accessMatrixIsKept i s t h
  rw [hframe hi]
  rfl

/-- BYTE and INIT act alike on states with the same synchronizer's part (R32). -/
theorem exec_of_sameSynchronizer {i : Instr} {s s' t : State} (hi : writesSynchronizer i = true)
    (hs : sameSynchronizer s s') (h : exec i s = .next t) : ∃ t', exec i s' = .next t' ∧ sameSynchronizer t t' := by
  obtain ⟨f, x, rfl⟩ := (sameSynchronizer_iff s s').1 hs
  obtain ⟨u, m, d, rfl, hm, rfl⟩ | ⟨rfl, rfl⟩ | ⟨_, hw, _⟩ := exec_next_cases_afterByte h
  · exact ⟨_, (execByte_next_iff_afterByte u m d _ _).2 ⟨hm, rfl⟩, rfl⟩
  · exact ⟨_, exec_init _, rfl⟩
  · cases hi.symm.trans hw

/-- The run without the consumers' operations, from a state with the same synchronizer's part (R60). -/
theorem runOps_filter_writesSynchronizer {is : List Instr} {s s' u : State} {rs : List RspWord}
    (hs : sameSynchronizer s s') (h : runOps is s = some (u, rs)) :
    ∃ v rs', runOps (is.filter writesSynchronizer) s' = some (v, rs') ∧ sameSynchronizer u v := by
  induction is generalizing s s' rs with
  | nil =>
    obtain ⟨rfl, rfl⟩ : s = u ∧ [] = rs := by simpa using h
    exact ⟨s', [], rfl, hs⟩
  | cons i is ih =>
    obtain ⟨t, rs', ht, hrun, rfl⟩ := (runOps_cons_iff i is s u rs).1 h
    cases hi : writesSynchronizer i with
    | true =>
      obtain ⟨t', ht', hsame⟩ := exec_of_sameSynchronizer hi hs ht
      obtain ⟨v, rs'', hv, huv⟩ := ih hsame hrun
      rw [List.filter_cons_of_pos hi]
      exact ⟨v, _, (runOps_cons_iff _ _ _ _ _).2 ⟨t', rs'', ht', hv, rfl⟩, huv⟩
    | false =>
      rw [List.filter_cons_of_neg (by simp [hi])]
      exact ih ((sameSynchronizer_of_consumer hi ht).trans hs) hrun

/-- Settles O47, by induction over the run (`runOps_filter_writesSynchronizer`). -/
theorem consumersDoNotDisturbSynchronizer : Obligations.ConsumersDoNotDisturbSynchronizer := by
  intro ops s u rs h
  exact runOps_filter_writesSynchronizer rfl h

/-! ### Bytes no READ may answer from (R131 (e), R210) -/

theorem sameToConsumer_iff (s t : State) :
    sameToConsumer s t ↔ agreeWhereReadable s t ∧ ∃ b x, t = { s with buf := b, rsp := x } := by
  refine and_congr_right fun _ => ⟨fun h => ?_, ?_⟩
  · obtain ⟨y, c, lb, lf, fr, b, r, q, x⟩ := s
    obtain ⟨y', c', lb', lf', fr', b', r', q', x'⟩ := t
    simp only [State.mk.injEq] at h
    obtain ⟨rfl, rfl, rfl, rfl, rfl, _, rfl, rfl, _⟩ := h
    exact ⟨b', x', rfl⟩
  · rintro ⟨b, x, rfl⟩
    rfl

/-- The same response leaves the states as alike as they were. -/
theorem sameToConsumer_respond {s t : State} (h : sameToConsumer s t) (f : Bool) (v : Byte) :
    sameToConsumer (s.respond f v) (t.respond f v) := h

/-- After a loss no channel can be read, but those of the frame in progress will be (R135, R210). -/
theorem sameToConsumer_clearReceived {s t : State} (h : sameToConsumer s t) :
    sameToConsumer s.clearReceived t.clearReceived := by
  obtain ⟨⟨_, hprogress⟩, b, x, rfl⟩ := (sameToConsumer_iff s t).1 h
  exact (sameToConsumer_iff _ _).2 ⟨⟨fun hf => absurd hf Bool.false_ne_true, hprogress⟩, b, x, rfl⟩

/-- Storing the same byte to the same slot keeps two buffers alike wherever they are. -/
theorem memGet_storeAt_congr {m m' : Memory} (v : Byte) {o : Option Nat} {n : Nat}
    (h : o ≠ some n → memGet m n = memGet m' n) : memGet (storeAt m v o) n = memGet (storeAt m' v o) n := by
  rw [memGet_storeAt, memGet_storeAt]
  split
  · rfl
  · next ho => exact h ho

/-- What becomes readable with a BYTE was readable before or is the byte stored: on completion the first 511 channels were
written by the frame in progress and slot 512 is written now (R109, R210). -/
theorem agreeWhereReadable_afterByte {s t : State} (tUs : Micros) (tMs : Millis) (data : Byte)
    (hm : s.positionHasMeaning = true) (h : sameToConsumer s t) :
    agreeWhereReadable (afterByte tUs tMs data s) (afterByte tUs tMs data t) := by
  obtain ⟨⟨hreceived, hprogress⟩, b, x, rfl⟩ := (sameToConsumer_iff s t).1 h
  constructor
  · intro hf n h1 h512
    refine memGet_storeAt_congr data fun hslot => ?_
    rw [afterByte_frameReceived, Bool.or_eq_true] at hf
    rcases hf with hf | hc
    · exact hreceived hf n h1 h512
    · obtain ⟨_, hy, hcnt⟩ := byteCompletes_iff.1 hc
      have hne : n ≠ 512 := fun hn => hslot (hn ▸ byteSlot_completing hc)
      exact hprogress hy n h1 (by rw [hcnt]; exact Nat.lt_of_le_of_ne h512 hne)
  · intro hy n h1 hlt
    refine memGet_storeAt_congr data fun hslot => ?_
    rw [afterByte_syncState] at hy
    rw [afterByte_chanCnt] at hlt
    rcases bytePosition_cases tUs data hm with hp | hp | ⟨hy', _, hs, hp⟩
    · simp [hp] at hy
    · have hlt1 : n < 1 := by simpa [hp] using hlt
      omega
    · have hne : n ≠ s.chanCnt.toNat := fun hn => hslot (hn ▸ hs)
      have hle : n < (s.chanCnt.toNat + 1) % 1024 := by simpa [hp] using hlt
      exact hprogress hy' n h1 (by omega)

/-- BYTE keeps the states alike to a consumer: nothing it decides reads the buffer. -/
theorem sameToConsumer_afterByte {s t : State} (tUs : Micros) (tMs : Millis) (data : Byte)
    (hm : s.positionHasMeaning = true) (h : sameToConsumer s t) :
    sameToConsumer (afterByte tUs tMs data s) (afterByte tUs tMs data t) := by
  refine ⟨agreeWhereReadable_afterByte tUs tMs data hm h, ?_⟩
  obtain ⟨_, b, x, rfl⟩ := (sameToConsumer_iff s t).1 h
  rfl

/-- READ answers alike: it reads a channel only while `frame_received` is 1, and there the buffers agree (R130). -/
theorem read_value_of_sameToConsumer {s t : State} (n : ChanNum) (h : sameToConsumer s t) :
    (if t.frameReceived = true ∧ channelInRange n = true then memGet t.buf n.toNat else 0x00#8) =
      if s.frameReceived = true ∧ channelInRange n = true then memGet s.buf n.toNat else 0x00#8 := by
  obtain ⟨⟨hreceived, _⟩, b, x, rfl⟩ := (sameToConsumer_iff s t).1 h
  refine ite_congr rfl (fun hr => ?_) fun _ => rfl
  obtain ⟨hf, hn⟩ := hr
  obtain ⟨h1, h512⟩ := (channelInRange_iff n).1 hn
  exact (hreceived hf n.toNat h1 h512).symm

/-- Every operation answers alike on states alike to a consumer, and leaves them alike (R131 (e)). -/
theorem exec_of_sameToConsumer (i : Instr) (s t u : State) (hst : sameToConsumer s t) (h : exec i s = .next u) :
    ∃ v, exec i t = .next v ∧ v.rsp = u.rsp ∧ sameToConsumer u v := by
  obtain ⟨_, b, x, rfl⟩ := (sameToConsumer_iff s t).1 hst
  cases i with
  | byte us m d =>
    obtain ⟨hm, rfl⟩ := (execByte_next_iff_afterByte us m d s u).1 h
    exact ⟨_, (execByte_next_iff_afterByte us m d _ _).2 ⟨hm, rfl⟩, rfl, sameToConsumer_afterByte us m d hm.2 hst⟩
  | read n =>
    obtain ⟨hm, rfl⟩ := (execRead_next_iff n s u).1 h
    refine ⟨_, (execRead_next_iff n _ _).2 ⟨hm, rfl⟩, ?_⟩
    rw [read_value_of_sameToConsumer n hst]
    exact ⟨rfl, sameToConsumer_respond hst _ _⟩
  | conn m =>
    obtain ⟨hm, rfl⟩ := (execConn_next_iff m s u).1 h
    exact ⟨_, (execConn_next_iff m _ _).2 ⟨hm, rfl⟩, rfl, sameToConsumer_respond hst _ _⟩
  | poll m =>
    obtain ⟨hm, ⟨hf, hs, rfl⟩ | ⟨hf, rfl⟩⟩ := (execPoll_next_iff m s u).1 h
    · exact ⟨_, (execPoll_next_iff m _ _).2 ⟨hm, .inl ⟨hf, hs, rfl⟩⟩, rfl,
        sameToConsumer_respond (sameToConsumer_clearReceived hst) _ _⟩
    · exact ⟨_, (execPoll_next_iff m _ _).2 ⟨hm, .inr ⟨hf, rfl⟩⟩, rfl, sameToConsumer_respond hst _ _⟩
  | flag =>
    obtain ⟨hm, rfl⟩ := (execFlag_next_iff s u).1 h
    exact ⟨_, (execFlag_next_iff _ _).2 ⟨hm, rfl⟩, rfl, sameToConsumer_respond hst _ _⟩
  | init =>
    rw [(execInit_next_iff s u).1 h]
    exact ⟨_, rfl, rfl, ⟨fun _ _ _ _ => rfl, fun _ _ _ _ => rfl⟩, rfl⟩

/-- Settles O48, by `runOps_simulation` with `sameToConsumer`. -/
theorem staleBytesAreNeverAnswered : Obligations.StaleBytesAreNeverAnswered := by
  intro ops s t u rs hst h
  exact runOps_simulation exec_of_sameToConsumer hst h

/-! ### The value of `last_frame_ms` while no frame is received (R27) -/

/-- The states are equal, or differ in `last_frame_ms` only and no frame is received. -/
def sameButUnusedFrameTime (s t : State) : Prop :=
  t = s ∨ (s.frameReceived = false ∧ ∃ m, t = { s with lastFrameMs := m })

/-- A BYTE carries another value of `last_frame_ms` along, or overwrites it (R109, R113). -/
theorem afterByte_of_lastFrameMs (tUs : Micros) (tMs m : Millis) (data : Byte) (s : State) :
    afterByte tUs tMs data { s with lastFrameMs := m } =
      { afterByte tUs tMs data s with lastFrameMs := if byteCompletes tUs s then tMs else m } := rfl

/-- Every operation answers alike on such states and leaves such states: a completing BYTE and INIT make them equal, and
with `frame_received` 0 no consumer's operation reads the time (R27). -/
theorem exec_of_sameButUnusedFrameTime (i : Instr) (s t u : State) (hst : sameButUnusedFrameTime s t)
    (h : exec i s = .next u) : ∃ v, exec i t = .next v ∧ v.rsp = u.rsp ∧ sameButUnusedFrameTime u v := by
  obtain rfl | ⟨hf, m, rfl⟩ := hst
  · exact ⟨u, h, rfl, .inl rfl⟩
  obtain ⟨us, ms, d, rfl, hm, rfl⟩ | ⟨rfl, rfl⟩ | ⟨hm, hi, _⟩ := exec_next_cases_afterByte h
  · refine ⟨_, (execByte_next_iff_afterByte us ms d _ _).2 ⟨hm, rfl⟩, rfl, ?_⟩
    cases hc : byteCompletes us s with
    | true => exact .inl (by rw [afterByte_of_lastFrameMs us ms m, hc]; simp [afterByte, hc])
    | false => exact .inr ⟨by simp [hf, hc], m, by rw [afterByte_of_lastFrameMs us ms m, hc]; rfl⟩
  · exact ⟨_, rfl, rfl, .inl rfl⟩
  · rw [exec_consumer_without_frame hi hm hf] at h
    obtain rfl := Host.Outcome.next.inj h
    exact ⟨_, exec_consumer_without_frame hi hm hf, rfl, .inr ⟨hf, m, rfl⟩⟩

/-- Settles O49, by `runOps_simulation` with `sameButUnusedFrameTime`. -/
theorem lastFrameTimeUnobservedWithoutFrame : Obligations.LastFrameTimeUnobservedWithoutFrame := by
  intro ops s u m rs hf h
  obtain ⟨v, hv, _⟩ := runOps_simulation exec_of_sameButUnusedFrameTime (.inr ⟨hf, m, rfl⟩) h
  exact ⟨v, hv⟩

end Sys2Proof.Machine

/-! PROOFS. Every operation answers once (R79, R170), the operations and the step that change nothing (R55, R59), and the
canonical form of the buffer over a step (R50, R56). -/

namespace Sys2Proof.Machine

open Sys2Proof.Safety

/-! ### Every operation answers, with a response of its shape -/

/-- After reset, at a position with a meaning, every operation takes a next state (R170). -/
theorem exec_answers (i : Instr) {s : State} (hr : s.resetSeen = true) (hm : s.positionHasMeaning = true) :
    ∃ t, exec i s = .next t := by
  cases i with
  | byte u m d => exact execByte_answers u m d hr hm
  | read n => exact ⟨_, (execRead_next_iff n s _).2 ⟨⟨hr, hm⟩, rfl⟩⟩
  | conn m => exact ⟨_, (execConn_next_iff m s _).2 ⟨⟨hr, hm⟩, rfl⟩⟩
  | poll m =>
    cases hl : s.frameReceived && isStale (elapsed m s.lastFrameMs) with
    | true =>
      obtain ⟨hf, hs⟩ := Bool.and_eq_true_iff.1 hl
      exact ⟨_, (execPoll_next_iff m s _).2 ⟨⟨hr, hm⟩, .inl ⟨hf, hs, rfl⟩⟩⟩
    | false => exact ⟨_, (execPoll_next_iff m s _).2 ⟨⟨hr, hm⟩, .inr ⟨hl, rfl⟩⟩⟩
  | flag => exact ⟨_, (execFlag_next_iff s _).2 ⟨⟨hr, hm⟩, rfl⟩⟩
  | init => exact ⟨_, exec_init s⟩

/-- A response that carries one bit only is one of the two words that R79 allows for it. -/
theorem rspWord_flag_cases (f : Bool) : rspWord false f 0#8 = 0x000#10 ∨ rspWord false f 0#8 = 0x100#10 := by
  cases f with
  | false => exact .inl rspWord_flag_false
  | true => exact .inr rspWord_flag_true

/-- The response of an operation is one that its row allows (R79). -/
theorem exec_next_legalResponse {i : Instr} {s t : State} (h : exec i s = .next t) :
    ∃ r, t.rsp = some r ∧ legalResponse i r = true := by
  cases i with
  | byte u m d =>
    obtain ⟨_, rfl⟩ := (execByte_next_iff_afterByte u m d s t).1 h
    refine ⟨_, rfl, ?_⟩
    cases byteCompletes u s <;> rfl
  | read n =>
    obtain ⟨_, rfl⟩ := (execRead_next_iff n s t).1 h
    refine ⟨_, rfl, ?_⟩
    rw [legalResponse, rspWord_val_toNat, decide_eq_true_iff]
    exact Nat.le_of_lt_succ (BitVec.isLt _)
  | conn m =>
    obtain ⟨_, rfl⟩ := (execConn_next_iff m s t).1 h
    exact ⟨_, rfl, by simpa [legalResponse] using rspWord_flag_cases _⟩
  | poll m =>
    obtain ⟨_, ⟨_, _, rfl⟩ | ⟨_, rfl⟩⟩ := (execPoll_next_iff m s t).1 h
    · exact ⟨_, rfl, by rw [rspWord_flag_true]; rfl⟩
    · exact ⟨_, rfl, by rw [rspWord_flag_false]; rfl⟩
  | flag =>
    obtain ⟨_, rfl⟩ := (execFlag_next_iff s t).1 h
    exact ⟨_, rfl, by simpa [legalResponse] using rspWord_flag_cases _⟩
  | init =>
    obtain rfl := (execInit_next_iff s t).1 h
    exact ⟨_, rfl, by rw [rspWord_flag_false]; rfl⟩

/-- Settles O30. -/
theorem everyOperationAnswersOnce : Obligations.EveryOperationAnswersOnce := by
  intro i s hr hm
  obtain ⟨t, ht⟩ := exec_answers i hr hm
  obtain ⟨r, hrsp, hlegal⟩ := exec_next_legalResponse ht
  exact ⟨t, r, ht, hrsp, hlegal, exec_next_inputs ht, (exec_next_meaning ht).1⟩

/-! ### The operations and the step that change nothing -/

/-- Settles O9. -/
theorem nothingPresentedChangesNothing : Obligations.NothingPresentedChangesNothing :=
  fun _ h => step_idle h

/-- Settles O29: each of the three answers from fields that its own answer leaves alone. -/
theorem readConnFlagAreIdempotent : Obligations.ReadConnFlagAreIdempotent := by
  rintro i s t (⟨n, rfl⟩ | ⟨m, rfl⟩ | rfl) h
  · obtain ⟨hm, rfl⟩ := (execRead_next_iff n s t).1 h
    exact ⟨rfl, (execRead_next_iff n _ _).2 ⟨hm, rfl⟩⟩
  · obtain ⟨hm, rfl⟩ := (execConn_next_iff m s t).1 h
    exact ⟨rfl, (execConn_next_iff m _ _).2 ⟨hm, rfl⟩⟩
  · obtain ⟨hm, rfl⟩ := (execFlag_next_iff s t).1 h
    exact ⟨rfl, (execFlag_next_iff _ _).2 ⟨hm, rfl⟩⟩

/-! ### The canonical form of the buffer -/

/-- BYTE stores to a slot that exists, INIT writes the empty list, and no other operation writes the buffer (R32). -/
theorem exec_keeps_buf_wf {i : Instr} {s t : State} (hwf : s.buf.wf = true) (h : exec i s = .next t) :
    t.buf.wf = true := by
  obtain ⟨u, m, d, rfl, ⟨_, hm⟩, rfl⟩ | ⟨rfl, rfl⟩ | ⟨_, _, ⟨f, v, rfl⟩ | ⟨m, rfl, _, rfl⟩⟩ :=
    exec_next_cases_afterByte h
  · exact afterByte_buf_wf u m d hm hwf
  · exact nil_wf
  · exact hwf
  · exact hwf

/-- Settles O42. -/
theorem stepKeepsBufferCanonical : Obligations.StepKeepsBufferCanonical := by
  intro s t hwf h
  obtain ⟨_, rfl⟩ | ⟨q, _, rfl⟩ | ⟨w, q, _, h⟩ := step_next_cases h
  · exact hwf
  · exact nil_wf
  · have hq : (s.setInputs q).buf.wf = true := hwf
    obtain ⟨i, _, h⟩ | ⟨e, _, _, rfl⟩ := performWord_next_cases h
    · exact exec_keeps_buf_wf hq h
    · exact hq

end Sys2Proof.Machine

/-! PROOFS. A frame in progress: what the block holds after a start code and some of the channel bytes, in terms of the
state before the frame (R104, R108), and what READ answers then (R210). -/

namespace Sys2Proof.Machine

open Sys2Proof.Safety

/-- The shape of a frame's start: a break with a null start code, then bytes without a break (R116). -/
theorem frameStart_iff (k : Nat) (last : Micros) (as : List Arrival) :
    frameStart k last as = true ↔ ∃ a bs, as = a :: bs ∧ showsBreak (gap a.tUs last) = true ∧ a.data = 0x00#8 ∧
      bs.length = k ∧ quiet a.tUs bs = true := by
  cases as with
  | nil => simp [frameStart]
  | cons a bs => simp [frameStart, Config.scNull, and_assoc]

theorem quiet_cons_iff (last : Micros) (a : Arrival) (as : List Arrival) :
    quiet last (a :: as) = true ↔ showsBreak (gap a.tUs last) = false ∧ quiet a.tUs as = true := by
  simp [quiet]

/-- READ of a channel of a completed frame answers its slot (R130). -/
theorem exec_read_channel {s : State} {i : Nat} (hm : s.resetSeen = true ∧ s.positionHasMeaning = true)
    (hf : s.frameReceived = true) (h1 : 1 ≤ i) (h512 : i ≤ 512) :
    exec (.read (BitVec.ofNat 16 i)) s = .next { s with rsp := some (0#2 ++ memGet s.buf i) } := by
  have hi : (BitVec.ofNat 16 i).toNat = i := Nat.mod_eq_of_lt (by omega)
  have hrange : channelInRange (BitVec.ofNat 16 i) = true := (channelInRange_iff _).2 (by omega)
  refine (execRead_next_iff _ s _).2 ⟨hm, ?_⟩
  rw [if_pos ⟨hf, hrange⟩, hi, State.respond, rspWord_val]

/-- In `u` a frame that began over `s` is in progress, with the channel bytes `bs` received: those stand in slots 1 on, the
slots above them are those of `s`, and what tells of the last completed frame is that of `s` (R108, R210). -/
structure FrameInProgress (s : State) (bs : List Arrival) (u : State) : Prop where
  resetSeen : u.resetSeen = true
  receiving : u.syncState = .receiving
  count : u.chanCnt.toNat = bs.length + 1
  frameReceived : u.frameReceived = s.frameReceived
  lastFrameMs : u.lastFrameMs = s.lastFrameMs
  slot_new : ∀ (j : Nat) (b : Arrival), bs[j]? = some b → memGet u.buf (j + 1) = b.data
  slot_old : ∀ n : Nat, bs.length < n → memGet u.buf n = memGet s.buf n

namespace FrameInProgress

variable {s u : State} {bs : List Arrival}

theorem positionHasMeaning (h : FrameInProgress s bs u) (hlen : bs.length ≤ 511) : u.positionHasMeaning = true :=
  (positionHasMeaning_iff u).2 (.inr ⟨h.receiving, h.count.trans_le (Nat.succ_le_succ hlen)⟩)

theorem chanCnt_ne_zero (h : FrameInProgress s bs u) : u.chanCnt ≠ 0#10 := by
  intro hc
  have hcount := h.count
  simp [hc] at hcount

/-- The start code begins a frame with no channel byte (R104, R106). -/
theorem of_startCode {a : Arrival} (hr : s.resetSeen = true) (hm : s.positionHasMeaning = true)
    (hb : showsBreak (gap a.tUs s.lastByteUs) = true) (hd : a.data = 0x00#8) :
    ∃ u, exec a.op s = .next u ∧ u.rsp = some 0x000#10 ∧ u.lastByteUs = a.tUs ∧ FrameInProgress s [] u := by
  refine ⟨_, (execByte_next_iff_afterByte a.tUs a.tMs a.data s _).2 ⟨⟨hr, hm⟩, rfl⟩, ?_⟩
  rw [afterByte_startCode (.inl hb) hd]
  exact
    ⟨congrArg some rspWord_flag_false, rfl,
      { resetSeen := hr
        receiving := rfl
        count := rfl
        frameReceived := rfl
        lastFrameMs := rfl
        slot_new := fun j b hj => by cases hj
        slot_old := fun n hn => memGet_memSet_other _ _ (Nat.ne_of_gt hn) }⟩

/-- The buffer after one more byte, at the slot behind the channel bytes `bs`. -/
theorem memGet_channel (h : FrameInProgress s bs u) (b c : Arrival) (j : Nat) (hj : (bs ++ [b])[j]? = some c) :
    memGet (memSet u.buf (bs.length + 1) b.data) (j + 1) = c.data := by
  rcases Nat.lt_trichotomy j bs.length with hlt | rfl | hgt
  · rw [List.getElem?_append_left hlt] at hj
    rw [memGet_memSet_other _ _ (by omega), h.slot_new j c hj]
  · obtain rfl : b = c := by simpa using hj
    exact memGet_memSet_same _ _ _
  · simp [List.getElem?_eq_none (l := bs ++ [b]) (i := j) (by simpa using hgt)] at hj

/-- One more channel byte, short of the last, goes to the next slot (R108). -/
theorem receive_channelByte {b : Arrival} (h : FrameInProgress s bs u) (hlen : bs.length < 511)
    (hb : showsBreak (gap b.tUs u.lastByteUs) = false) :
    ∃ v, exec b.op u = .next v ∧ v.rsp = some 0x000#10 ∧ v.lastByteUs = b.tUs ∧ FrameInProgress s (bs ++ [b]) v := by
  have hm := h.positionHasMeaning (Nat.le_of_lt hlen)
  have hcount := h.count
  refine ⟨_, (execByte_next_iff_afterByte b.tUs b.tMs b.data u _).2 ⟨⟨h.resetSeen, hm⟩, rfl⟩, ?_⟩
  rw [afterByte_channel hb h.receiving h.chanCnt_ne_zero (by omega), hcount]
  have hnext : (u.chanCnt + 1#10).toNat = (bs ++ [b]).length + 1 := by
    rw [BitVec.toNat_add, hcount, List.length_append]
    exact Nat.mod_eq_of_lt (by simp; omega)
  refine
    ⟨congrArg some rspWord_flag_false, rfl,
      { resetSeen := h.resetSeen
        receiving := rfl
        count := hnext
        frameReceived := h.frameReceived
        lastFrameMs := h.lastFrameMs
        slot_new := fun j c => h.memGet_channel b c j
        slot_old := fun n hn => ?_ }⟩
  have hn' : bs.length + 1 < n := by simpa using hn
  exact (memGet_memSet_other _ _ (Nat.ne_of_gt hn')).trans (h.slot_old n (by omega))

/-- A run of further channel bytes, short of the last, all answered `0x000` (R108). -/
theorem receive_channelBytes {as : List Arrival} (h : FrameInProgress s bs u) (hlen : bs.length + as.length ≤ 511)
    (hq : quiet u.lastByteUs as = true) :
    ∃ v, runOps (as.map Arrival.op) u = some (v, List.replicate as.length 0x000#10) ∧
      FrameInProgress s (bs ++ as) v := by
  induction as generalizing bs u with
  | nil => exact ⟨u, rfl, by rwa [List.append_nil]⟩
  | cons a as ih =>
    rw [List.length_cons] at hlen
    obtain ⟨hb, hq⟩ := (quiet_cons_iff _ _ _).1 hq
    obtain ⟨v, hv, hrsp, hlast, hprog⟩ := h.receive_channelByte (by omega) hb
    obtain ⟨w, hw, hprog'⟩ := ih hprog (by simp; omega) (by rwa [hlast])
    exact ⟨w, (runOps_cons_iff _ _ _ _ _).2 ⟨v, _, hv, hw, by rw [hrsp]; rfl⟩, by rwa [List.append_cons]⟩

/-- A start code and up to 511 channel bytes, from any position with a meaning, leave that frame in progress. -/
theorem of_frameStart {k : Nat} {a : Arrival} {bs : List Arrival} (hr : s.resetSeen = true)
    (hm : s.positionHasMeaning = true) (hk : k ≤ 511) (hstart : frameStart k s.lastByteUs (a :: bs) = true) :
    ∃ u, runOps ((a :: bs).map Arrival.op) s = some (u, List.replicate (k + 1) 0x000#10) ∧ bs.length = k ∧
      FrameInProgress s bs u := by
  obtain ⟨_, _, h, hb, hd, rfl, hq⟩ := (frameStart_iff _ _ _).1 hstart
  obtain ⟨rfl, rfl⟩ := List.cons.inj h
  obtain ⟨t, ht, hrsp, hlast, hprog⟩ := of_startCode hr hm hb hd
  obtain ⟨u, hu, hprog'⟩ := hprog.receive_channelBytes (as := bs) (by simpa using hk) (by rwa [hlast])
  exact ⟨u, (runOps_cons_iff _ _ _ _ _).2 ⟨t, _, ht, hu, by rw [hrsp]; rfl⟩, rfl, hprog'⟩

end FrameInProgress

/-- Settles O45: the frame that the bytes leave in progress holds the new bytes below the position and the old ones above. -/
theorem readDuringReceptionIsTorn : Obligations.ReadDuringReceptionIsTorn := by
  intro s as k hr hm hf hk hstart
  obtain ⟨a, bs, rfl, _⟩ := (frameStart_iff _ _ _).1 hstart
  obtain ⟨u, hrun, rfl, hprog⟩ := FrameInProgress.of_frameStart hr hm hk hstart
  have hmu := hprog.positionHasMeaning hk
  have hfu : u.frameReceived = true := hprog.frameReceived.trans hf
  have hcnt : u.chanCnt = BitVec.ofNat 10 (bs.length + 1) := by
    rw [← hprog.count, BitVec.ofNat_toNat, BitVec.setWidth_eq]
  refine ⟨u, hrun, hprog.receiving, hcnt, hfu, hprog.lastFrameMs, fun i b hi hb => ?_, fun i hki hi => ?_⟩
  · obtain ⟨j, rfl⟩ : ∃ j, i = j + 1 := ⟨i - 1, by omega⟩
    have hj : bs[j]? = some b := hb
    obtain ⟨hlt, _⟩ := List.getElem?_eq_some_iff.1 hj
    rw [exec_read_channel ⟨hprog.resetSeen, hmu⟩ hfu hi (by omega), hprog.slot_new j b hj]
  · rw [exec_read_channel ⟨hprog.resetSeen, hmu⟩ hfu (by omega) hi, hprog.slot_old i hki]

end Sys2Proof.Machine

/-! PROOFS. The operation port over clock cycles (R85): what one cycle without `rst` can do, and by induction over the cycles
the words presented against the words answered. -/

namespace Sys2Proof.Machine

open Sys2Proof.Safety

/-! ### Runs over operation words -/

/-- A run that begins with a word: the word is answered, and the rest runs from there. -/
theorem runWords_cons_iff (w : OpWord) (ws : List OpWord) (s u : State) (rs : List RspWord) :
    runWords (w :: ws) s = some (u, rs) ↔
      ∃ t rs', performWord w s = .next t ∧ runWords ws t = some (u, rs') ∧ rs = t.rsp.getD 0#10 :: rs' := by
  rw [runWords]
  cases hw : performWord w s <;> simp [eq_comm, and_left_comm]

/-- One response for each word (R13). -/
theorem runWords_length {ws : List OpWord} {s u : State} {rs : List RspWord} (h : runWords ws s = some (u, rs)) :
    rs.length = ws.length := by
  induction ws generalizing s rs with
  | nil =>
    obtain ⟨rfl, rfl⟩ : s = u ∧ [] = rs := by simpa [runWords] using h
    rfl
  | cons w ws ih =>
    obtain ⟨t, rs', _, hrun, rfl⟩ := (runWords_cons_iff w ws s u rs).1 h
    rw [List.length_cons, List.length_cons, ih hrun]

/-- Every word that is given a next state is answered, a legal one or not (R13, R80). -/
theorem performWord_next_rsp {w : OpWord} {s t : State} (h : performWord w s = .next t) : ∃ r, t.rsp = some r := by
  obtain ⟨i, _, h⟩ | ⟨e, _, _, rfl⟩ := performWord_next_cases h
  · exact exec_next_rsp h
  · exact ⟨_, rfl⟩

/-- The response of the step before has no part in what a word does (R29). -/
theorem performWord_of_noResponse {w : OpWord} {s t : State} (h : performWord w s.noResponse = .next t) :
    performWord w s = .next t := by
  obtain ⟨i, hd, h⟩ | ⟨e, hd, ⟨hr, hm⟩, rfl⟩ := performWord_next_cases h
  · rw [performWord_of_decode_ok s hd]
    exact exec_noResponse (s := s.noResponse) s.rsp h
  · rw [performWord_of_decode_error s hd]
    exact illegalWord_of_meaning hr hm

/-- A cycle without an answer before a run of words has no part in it. -/
theorem runWords_of_noResponse {ws : List OpWord} {s v : State} {rs : List RspWord}
    (h : runWords ws s.noResponse = some (v, rs)) :
    ∃ v', runWords ws s = some (v', rs) ∧ v'.noResponse = v.noResponse := by
  cases ws with
  | nil =>
    obtain ⟨rfl, rfl⟩ : s.noResponse = v ∧ [] = rs := by simpa [runWords] using h
    exact ⟨s, rfl, rfl⟩
  | cons w ws =>
    obtain ⟨t, rs', hw, hrun, rfl⟩ := (runWords_cons_iff w ws _ v rs).1 h
    exact ⟨v, (runWords_cons_iff w ws s v _).2 ⟨t, rs', performWord_of_noResponse hw, hrun, rfl⟩, rfl⟩

/-! ### One cycle -/

/-- The word presented in a cycle, if one is (R85). -/
def Port.presentedIn (p : Port) (c : PortSignals) : List OpWord := if p.presents c then [c.opWord] else []

/-- All that a cycle without `rst` can do: give no answer and take what is presented, or answer the word in flight, in which
cycle nothing is presented (R85). -/
theorem Port.cycle_next_cases {p q : Port} {c : PortSignals} (hrst : c.rst = false) (h : p.cycle c = .next q) :
    (q.block = p.block.noResponse ∧ p.inFlight.toList ++ p.presentedIn c = q.inFlight.toList) ∨
    (∃ w, p.inFlight.toList ++ p.presentedIn c = [w] ∧ performWord w p.block = .next q.block ∧ q.inFlight = none) := by
  unfold Port.cycle at h
  rw [if_neg (by simp [hrst])] at h
  cases hf : p.inFlight with
  | none =>
    rw [hf] at h
    obtain rfl := Host.Outcome.next.inj h
    left
    refine ⟨rfl, ?_⟩
    cases hv : c.opValid <;> simp [Port.presentedIn, Port.presents, Port.opReady, hrst, hf, hv]
  | some w =>
    have hpres : p.presentedIn c = [] := by simp [Port.presentedIn, Port.presents, Port.opReady, hf]
    rw [hf] at h
    cases ha : c.answer with
    | false =>
      simp only [ha, Bool.false_eq_true, if_false] at h
      obtain rfl := Host.Outcome.next.inj h
      exact .inl ⟨rfl, by rw [hpres]; rfl⟩
    | true =>
      simp only [ha, if_true, Port.performInFlight] at h
      cases hw : performWord w p.block with
      | next t =>
        rw [hw] at h
        obtain rfl := Host.Outcome.next.inj h
        exact .inr ⟨w, by rw [hpres]; rfl, hw, rfl⟩
      | fault f => rw [hw] at h; cases h
      | refused r => rw [hw] at h; cases h

/-! ### A run of cycles -/

/-- A run that begins with a cycle: the cycle is given a next state, and the rest runs from there. -/
theorem Port.run_cons {c : PortSignals} {cs : List PortSignals} {p u : Port} {tr : PortTrace}
    (h : Port.run (c :: cs) p = some (u, tr)) :
    ∃ q tr', p.cycle c = .next q ∧ Port.run cs q = some (u, tr') ∧
      tr = ⟨p.presentedIn c ++ tr'.presented, q.block.rsp.toList ++ tr'.responses⟩ := by
  rw [Port.run] at h
  cases hc : p.cycle c with
  | next q =>
    rw [hc] at h
    cases hrun : Port.run cs q with
    | none => simp [hrun] at h
    | some r =>
      obtain ⟨u', tr'⟩ := r
      simp only [hrun, Option.some.injEq, Prod.mk.injEq] at h
      obtain ⟨rfl, rfl⟩ := h
      refine ⟨q, tr', rfl, hrun, ?_⟩
      cases hp : p.presents c <;> simp [Port.presentedIn, hp]
  | fault f => simp [hc] at h
  | refused r => simp [hc] at h

/-- Over cycles without `rst`, the word in flight at the start and the words presented are, in this order, the words answered
and the word in flight at the end (R85); the answers are those of the words run one by one (R59). -/
theorem Port.run_answers_in_order {cs : List PortSignals} {p u : Port} {tr : PortTrace} (hrst : ∀ c ∈ cs, c.rst = false)
    (h : Port.run cs p = some (u, tr)) :
    ∃ ws v, p.inFlight.toList ++ tr.presented = ws ++ u.inFlight.toList ∧
      runWords ws p.block = some (v, tr.responses) ∧ v.noResponse = u.block.noResponse := by
  induction cs generalizing p tr with
  | nil =>
    obtain ⟨rfl, rfl⟩ : p = u ∧ ⟨[], []⟩ = tr := by simpa [Port.run] using h
    exact ⟨[], p.block, by simp, rfl, rfl⟩
  | cons c cs ih =>
    obtain ⟨q, tr', hcycle, hrun, rfl⟩ := Port.run_cons h
    obtain ⟨ws, v, hpres, hws, hv⟩ := ih (fun d hd => hrst d (List.mem_cons_of_mem c hd)) hrun
    obtain ⟨hblock, hflight⟩ | ⟨w, hflight, hw, hnone⟩ := Port.cycle_next_cases (hrst c List.mem_cons_self) hcycle
    · rw [hblock] at hws ⊢
      obtain ⟨v', hv', hsame⟩ := runWords_of_noResponse hws
      exact ⟨ws, v', by rw [← List.append_assoc, hflight, hpres], hv', hsame.trans hv⟩
    · obtain ⟨r, hr⟩ := performWord_next_rsp hw
      rw [hnone] at hpres
      refine ⟨w :: ws, v, ?_, (runWords_cons_iff _ _ _ _ _).2 ⟨q.block, _, hw, hws, by rw [hr]; rfl⟩, hv⟩
      rw [← List.append_assoc, hflight]
      exact congrArg (w :: ·) hpres

/-- Settles O50: the words answered are as many as the responses (`runWords_length`), so they are the first of those
presented. -/
theorem portAnswersInOrderPresented : Obligations.PortAnswersInOrderPresented := by
  intro cs p u tr hnone hrst h
  obtain ⟨ws, v, hpres, hws, hv⟩ := Port.run_answers_in_order hrst h
  have hpres' : tr.presented = ws ++ u.inFlight.toList := by simpa [hnone] using hpres
  have htake : tr.presented.take tr.responses.length = ws := by rw [hpres', runWords_length hws, List.take_left]
  rw [htake]
  exact ⟨hpres', v, hws, hv⟩

end Sys2Proof.Machine

/-! PROOFS. The decoder against the opcode map: each mask and match as a condition on the opcode and the reserved bits of
the row's format (R72 to R77), and every way a word can be rejected (R80). -/

namespace Sys2Proof

/-! ### The masks, by format -/

section

variable (w p : OpWord) (op : BitVec 4)

theorem maskB_eq_iff (hp : p.toNat = op.toNat * 2 ^ 76) :
    w &&& 0xFF000000000000000000#80 = p ↔ opcodeOf w = op ∧ reservedZeroB w = true := by
  rw [maskB_iff w p (by omega), field_eq_iff, toNat_field, opcodeOf_eq_iff, reservedZeroB_iff]
  omega

theorem maskR_eq_iff (hp : p.toNat = op.toNat * 2 ^ 76) :
    w &&& 0xFFFFFFFFFFFFFFFF0000#80 = p ↔ opcodeOf w = op ∧ reservedZeroR w = true := by
  rw [maskR_iff w p (by omega), field_eq_iff, toNat_field, opcodeOf_eq_iff, reservedZeroR_iff]
  omega

theorem maskT_eq_iff (hp : p.toNat = op.toNat * 2 ^ 76) :
    w &&& 0xFFFFFFFFFF00000000FF#80 = p ↔ opcodeOf w = op ∧ reservedZeroT w = true := by
  have hlow : field 8 32 p = 0#32 := by rw [field_eq_iff, BitVec.toNat_ofNat]; omega
  rw [maskT_iff w p hlow, field_eq_iff, field_eq_iff, toNat_field, toNat_field, opcodeOf_eq_iff, reservedZeroT_iff]
  omega

theorem maskZ_eq_iff (hp : p.toNat = op.toNat * 2 ^ 76) :
    w &&& 0xFFFFFFFFFFFFFFFFFFFF#80 = p ↔ opcodeOf w = op ∧ reservedZeroZ w = true := by
  have hw := w.isLt
  rw [maskZ_iff, BitVec.toNat_eq, opcodeOf_eq_iff, reservedZeroZ_iff]
  omega

end

/-! ### Rows and legal words -/

/-- A word that matches a row decodes to an operation of the row's mnemonic (R77): the row fixes the opcode and the reserved
bits, and the operands are free. -/
theorem decode_ok_of_accepts {w : OpWord} {r : OpcodeRow} (hr : r ∈ opcodeMap) (ha : r.accepts w = true) :
    ∃ i, decode w = .ok i ∧ mnemonicOf i = r.mnemonic := by
  rw [OpcodeRow.accepts, beq_iff_eq] at ha
  simp only [opcodeMap, List.mem_cons, List.not_mem_nil, or_false] at hr
  obtain rfl | rfl | rfl | rfl | rfl | rfl := hr
  · obtain ⟨ho, hz⟩ := (maskB_eq_iff w _ 0x1#4 rfl).1 ha
    exact ⟨_, (decode_ok_iff w _).2 (.inl ⟨ho, hz, rfl⟩), rfl⟩
  · obtain ⟨ho, hz⟩ := (maskR_eq_iff w _ 0x2#4 rfl).1 ha
    exact ⟨_, (decode_ok_iff w _).2 (.inr (.inl ⟨ho, hz, rfl⟩)), rfl⟩
  · obtain ⟨ho, hz⟩ := (maskT_eq_iff w _ 0x3#4 rfl).1 ha
    exact ⟨_, (decode_ok_iff w _).2 (.inr (.inr (.inl ⟨ho, hz, rfl⟩))), rfl⟩
  · obtain ⟨ho, hz⟩ := (maskT_eq_iff w _ 0x4#4 rfl).1 ha
    exact ⟨_, (decode_ok_iff w _).2 (.inr (.inr (.inr (.inl ⟨ho, hz, rfl⟩)))), rfl⟩
  · obtain ⟨ho, hz⟩ := (maskZ_eq_iff w _ 0x5#4 rfl).1 ha
    exact ⟨_, (decode_ok_iff w _).2 (.inr (.inr (.inr (.inr (.inl ⟨ho, hz, rfl⟩))))), rfl⟩
  · obtain ⟨ho, hz⟩ := (maskZ_eq_iff w _ 0x6#4 rfl).1 ha
    exact ⟨_, (decode_ok_iff w _).2 (.inr (.inr (.inr (.inr (.inr ⟨ho, hz, rfl⟩))))), rfl⟩

/-- A mnemonic names one row (R77). -/
theorem row_eq_of_mnemonic_eq : ∀ r ∈ opcodeMap, ∀ q ∈ opcodeMap, r.mnemonic = q.mnemonic → r = q := by
  decide

/-- The rows' opcodes are `0001` to `0110` (R77). -/
theorem row_opcode_defined : ∀ r ∈ opcodeMap, ¬(opcodeOf r.pattern = 0x0#4 ∨ 0x7#4 ≤ opcodeOf r.pattern) := by
  decide

/-- A word spells an operation of a row's mnemonic iff it matches the row (R77, R81). -/
theorem accepts_iff_decode {w : OpWord} {r : OpcodeRow} (hr : r ∈ opcodeMap) :
    r.accepts w = true ↔ ∃ i, decode w = .ok i ∧ mnemonicOf i = r.mnemonic := by
  constructor
  · exact decode_ok_of_accepts hr
  · rintro ⟨i, hd, hi⟩
    obtain ⟨q, hq, hqi, ha⟩ := decode_ok_matches_row hd
    rwa [row_eq_of_mnemonic_eq r hr q hq (hi.symm.trans hqi.symm)]

/-- No word matches two rows (R77): it decodes to one operation, which has one mnemonic. -/
theorem row_eq_of_accepts {w : OpWord} {r q : OpcodeRow} (hr : r ∈ opcodeMap) (hq : q ∈ opcodeMap)
    (har : r.accepts w = true) (haq : q.accepts w = true) : r = q := by
  obtain ⟨i, hi, hir⟩ := decode_ok_of_accepts hr har
  obtain ⟨j, hj, hjq⟩ := decode_ok_of_accepts hq haq
  obtain rfl : i = j := Except.ok.inj (hi.symm.trans hj)
  exact row_eq_of_mnemonic_eq r hr q hq (hir.symm.trans hjq)

/-! ### Rejected words -/

theorem acceptIf_error {b : Bool} {m : String} {i : Instr} {e : DecodeError} (h : acceptIf b m i = .error e) :
    e = .reservedBits m := by
  cases b with
  | false => exact (Except.error.inj h).symm
  | true => cases h

theorem opcode_undefined_of_ne : ∀ v : BitVec 4,
    v ≠ 0x1#4 → v ≠ 0x2#4 → v ≠ 0x3#4 → v ≠ 0x4#4 → v ≠ 0x5#4 → v ≠ 0x6#4 → v = 0x0#4 ∨ 0x7#4 ≤ v := by
  decide

/-- Every way a word can be rejected: an undefined opcode, or the opcode of a row and a reserved bit that is 1 (R80). -/
theorem decode_error_cases {w : OpWord} {e : DecodeError} (h : decode w = .error e) :
    ((opcodeOf w = 0x0#4 ∨ 0x7#4 ≤ opcodeOf w) ∧ e = .undefinedOpcode (opcodeOf w)) ∨
    (∃ r ∈ opcodeMap, opcodeOf r.pattern = opcodeOf w ∧ e = .reservedBits r.mnemonic) := by
  unfold decode at h
  split_ifs at h with h1 h2 h3 h4 h5 h6
  case neg => exact .inl ⟨opcode_undefined_of_ne _ h1 h2 h3 h4 h5 h6, (Except.error.inj h).symm⟩
  all_goals
    obtain rfl := acceptIf_error h
    right
    rw [‹opcodeOf w = _›]
    decide

/-! ### The obligations -/

/-- Settles O1. -/
theorem decodeOfEncodeIsIdentity : Obligations.DecodeOfEncodeIsIdentity :=
  decode_encode

/-- Settles O2. -/
theorem encodeOfDecodeIsIdentity : Obligations.EncodeOfDecodeIsIdentity :=
  fun _ _ => encode_of_decode

/-- Settles O3. -/
theorem wordSpellsOperationIffRowMatches : Obligations.WordSpellsOperationIffRowMatches :=
  ⟨fun _ _ => accepts_iff_decode, fun _ _ _ => row_eq_of_accepts⟩

/-- Settles O4: the two ways to be rejected (`decode_error_cases`) exclude each other by the opcode. -/
theorem illegalWordIsRejectedByName : Obligations.IllegalWordIsRejectedByName := by
  refine ⟨fun w hrow => ?_, decode_error_of_no_row (by decide), decode_error_of_no_row (by decide)⟩
  obtain ⟨e, he⟩ := decode_error_of_no_row hrow
  obtain ⟨hop, rfl⟩ | ⟨r, hr, hop, rfl⟩ := decode_error_cases he
  · rw [if_pos hop]
    exact he
  · rw [if_neg (hop ▸ row_opcode_defined r hr)]
    exact ⟨r, hr, hop, he⟩

/-- A word written out decodes to the operation whose word it is (R81). -/
theorem decode_of_encode_eq {w : OpWord} {i : Instr} (h : encode i = w) : decode w = .ok i :=
  h ▸ decode_encode i

/-- Settles O5: each word is the word of the operation beside it. -/
theorem sampleWordsDecode : Obligations.SampleWordsDecode :=
  ⟨decode_of_encode_eq (by decide), decode_of_encode_eq (by decide), decode_of_encode_eq (by decide),
    decode_of_encode_eq (by decide), decode_of_encode_eq (by decide), decode_of_encode_eq (by decide)⟩

end Sys2Proof

/-! PROOFS. The gaps that the pseudo-operations of a trace make (R84), FLAG's answer (R136), and a cycle of the port with
`rst` (R161). -/

namespace Sys2Proof.Machine

open Sys2Proof.Safety

/-! ### The pseudo-operations -/

theorem fits_iff (k n : Nat) : fits k n = true ↔ n < 2 ^ k := decide_eq_true_iff

/-- A time `g` after `prev`, across the wrap as well, is at gap `g` (R84, R101). -/
theorem gap_add_ofNat (prev : Micros) {g : Nat} (hg : g < 2 ^ 32) : (gap (prev + BitVec.ofNat 32 g) prev).toNat = g := by
  rw [gap, BitVec.add_comm, BitVec.add_sub_cancel, BitVec.toNat_ofNat, Nat.mod_eq_of_lt hg]

/-- A GBYTE shows a break iff its gap is above 88 (R84, R102). -/
theorem showsBreak_gap_add_ofNat (prev : Micros) {g : Nat} (hg : g < 2 ^ 32) :
    showsBreak (gap (prev + BitVec.ofNat 32 g) prev) = true ↔ 88 < g := by
  rw [showsBreak_gap_iff, ← gap, gap_add_ofNat prev hg]

section

variable (prev : Micros) (g m : Nat) (vs : List Nat)

/-- The first of a run of GBYTEs hands over one received byte, and the rest follow from its time on (R84). -/
theorem bytesOf_gbytes_cons (v : Nat) : bytesOf (gbytes prev g m (v :: vs)) =
    ⟨prev + BitVec.ofNat 32 g, BitVec.ofNat 32 m, BitVec.ofNat 8 v⟩ ::
      bytesOf (gbytes (prev + BitVec.ofNat 32 g) g m vs) := rfl

/-- A run of GBYTEs is a run of BYTEs and nothing else (R84). -/
theorem bytesOf_gbytes_map_op : (bytesOf (gbytes prev g m vs)).map Arrival.op = gbytes prev g m vs := by
  induction vs generalizing prev with
  | nil => rfl
  | cons v vs ih =>
    rw [bytesOf_gbytes_cons, List.map_cons, ih]
    rfl

/-- The bytes of a run of GBYTEs are its values in order (R84). -/
theorem bytesOf_gbytes_map_data : (bytesOf (gbytes prev g m vs)).map Arrival.data = vs.map (BitVec.ofNat 8) := by
  induction vs generalizing prev with
  | nil => rfl
  | cons v vs ih => rw [bytesOf_gbytes_cons, List.map_cons, ih, List.map_cons]

theorem bytesOf_gbytes_length : (bytesOf (gbytes prev g m vs)).length = vs.length := by
  simpa using congrArg List.length (bytesOf_gbytes_map_data prev g m vs)

/-- A run of GBYTEs with a gap of at most 88 shows no break (R84, R102). -/
theorem quiet_bytesOf_gbytes (hg : g ≤ 88) : quiet prev (bytesOf (gbytes prev g m vs)) = true := by
  induction vs generalizing prev with
  | nil => rfl
  | cons v vs ih =>
    rw [bytesOf_gbytes_cons, quiet_cons_iff]
    refine ⟨?_, ih _⟩
    rw [← Bool.not_eq_true, showsBreak_gap_add_ofNat prev (by omega)]
    omega

end

theorem gap_lt_of_wellFormed_gbyte {g m d : Nat} (h : wellFormed (.gbyte g m d) = true) : g < 2 ^ 32 := by
  simp only [wellFormed, Bool.and_eq_true, fits_iff] at h
  omega

theorem gap0_lt_of_wellFormed_frame {g0 g m sc : Nat} {vs : List Nat} (h : wellFormed (.frame g0 g m sc vs) = true) :
    g0 < 2 ^ 32 := by
  simp only [wellFormed, Bool.and_eq_true, fits_iff] at h
  omega

section

variable (prev : Micros) (g0 g m sc : Nat) (vs : List Nat)

/-- A FRAME hands over its start code and then the bytes of a run of GBYTEs (R84). -/
theorem bytesOf_frame_eq : bytesOf (TraceOp.expand prev (.frame g0 g m sc vs)) =
    ⟨prev + BitVec.ofNat 32 g0, BitVec.ofNat 32 m, BitVec.ofNat 8 sc⟩ ::
      bytesOf (gbytes (prev + BitVec.ofNat 32 g0) g m vs) := rfl

/-- A FRAME is a run of BYTEs and nothing else (R84). -/
theorem bytesOf_frame_map_op :
    (bytesOf (TraceOp.expand prev (.frame g0 g m sc vs))).map Arrival.op =
      TraceOp.expand prev (.frame g0 g m sc vs) := by
  rw [bytesOf_frame_eq, List.map_cons, bytesOf_gbytes_map_op]
  rfl

variable {g0 g vs}

/-- A FRAME of 512 values whose first gap is a break and whose other gaps are none has the shape of a frame (R84, R116). -/
theorem isFrame_bytesOf_frame (hlt : g0 < 2 ^ 32) (hg0 : 88 < g0) (hg : g ≤ 88) (hlen : vs.length = 512) :
    isFrame prev (bytesOf (TraceOp.expand prev (.frame g0 g m 0 vs))) = true :=
  (frameStart_iff _ _ _).2 ⟨_, _, bytesOf_frame_eq prev g0 g m 0 vs, (showsBreak_gap_add_ofNat prev hlt).2 hg0, rfl,
    (bytesOf_gbytes_length _ g m vs).trans hlen, quiet_bytesOf_gbytes _ g m vs hg⟩

end

/-- Settles O52: the received bytes are those that the operations of the line hand over. -/
theorem pseudoOperationsMakeTheirGaps : Obligations.PseudoOperationsMakeTheirGaps := by
  constructor
  · intro prev g m d hwf
    exact ⟨_, rfl, gap_add_ofNat prev (gap_lt_of_wellFormed_gbyte hwf)⟩
  · intro prev g0 g m vs hwf hg0 hg hlen
    exact ⟨_, (bytesOf_frame_map_op prev g0 g m 0 vs).symm,
      isFrame_bytesOf_frame prev m (gap0_lt_of_wellFormed_frame hwf) hg0 hg hlen, bytesOf_gbytes_map_data _ g m vs⟩

/-! ### FLAG and the port's reset -/

/-- The response word that carries one bit (R78). -/
theorem rspWord_flag (f : Bool) : rspWord false f 0#8 = if f = true then 0x100#10 else 0x000#10 := by
  cases f with
  | false => exact rspWord_flag_false
  | true => exact rspWord_flag_true

/-- Settles O26. -/
theorem flagAnswersFrameReceived : Obligations.FlagAnswersFrameReceived := by
  intro s hr hm
  refine ⟨decode_encode .flag, (execFlag_next_iff s _).2 ⟨⟨hr, hm⟩, ?_⟩⟩
  rw [State.respond, rspWord_flag]

/-- One cycle with `rst` (R161). -/
theorem Port.cycle_rst (p : Port) {c : PortSignals} (hrst : c.rst = true) :
    p.cycle c = .next { block := hardwareReset p.block, inFlight := none, cycles := p.cycles + 1 } :=
  if_pos hrst

theorem Port.presents_rst (p : Port) {c : PortSignals} (hrst : c.rst = true) : p.presents c = false := by
  simp [Port.presents, hrst]

/-- Settles O51. -/
theorem portResetAbandonsOperationInFlight : Obligations.PortResetAbandonsOperationInFlight := by
  intro p c hrst
  exact ⟨_, p.cycle_rst hrst, hardwareReset_eq p.block, rfl, rfl, p.presents_rst hrst⟩

end Sys2Proof.Machine

/-! PROOFS. One BYTE, path by path (R100 to R112): each path's whole next state is `afterByte` on that path, and its slots
are those of `byteSlot`. What a BYTE does not depend on (R104, R114, R115) is read off one equation of its outcome. -/

namespace Sys2Proof.Machine

open Sys2Proof.Safety

/-! ### The outcome of a BYTE in one equation -/

/-- What stands behind the two refusals matters only where neither is given. -/
theorem whenMeaning_congr {s : State} {k k' : Host.Outcome State Fault Refusal}
    (h : s.resetSeen = true → s.positionHasMeaning = true → k = k') : whenMeaning s k = whenMeaning s k' := by
  unfold whenMeaning
  split
  · next hr =>
    split
    · next hm => exact h hr hm
    · rfl
  · rfl

section

variable {tUs : Micros} {tMs : Millis} {data : Byte} {s : State}

theorem exec_byte_of_meaning (hr : s.resetSeen = true) (hm : s.positionHasMeaning = true) :
    exec (.byte tUs tMs data) s = .next (afterByte tUs tMs data s) :=
  (execByte_next_iff_afterByte tUs tMs data s _).2 ⟨⟨hr, hm⟩, rfl⟩

/-- The outcome of a BYTE, refusals included. -/
theorem exec_byte_eq_whenMeaning :
    exec (.byte tUs tMs data) s = whenMeaning s (.next (afterByte tUs tMs data s)) :=
  whenMeaning_congr fun hr hm => by
    rw [← whenMeaning_of (answerByte _) hr hm]
    exact exec_byte_of_meaning hr hm

/-- A BYTE replaces the slot it stores to and no other (R57). -/
theorem memGet_afterByte (a : Nat) : memGet (afterByte tUs tMs data s).buf a =
    if byteSlot tUs data s = some a then data else memGet s.buf a :=
  memGet_storeAt _ _ _ _

theorem memGet_afterByte_same {a : Nat} (ha : byteSlot tUs data s = some a) :
    memGet (afterByte tUs tMs data s).buf a = data := by
  rw [memGet_afterByte, if_pos ha]

theorem memGet_afterByte_other {a b : Nat} (ha : byteSlot tUs data s = some a) (hb : b ≠ a) :
    memGet (afterByte tUs tMs data s).buf b = memGet s.buf b := by
  rw [memGet_afterByte, ha, if_neg (by simpa using hb.symm)]

/-- `t_ms` enters the next state of a completing BYTE only (R114). -/
theorem afterByte_millis_of_not_completing (m : Millis) (h : byteCompletes tUs s = false) :
    afterByte tUs tMs data s = afterByte tUs m data s := by
  simp [afterByte, h]

/-! ### The gap (R101, R115) -/

theorem gap_add_add (t l d : Micros) : gap (t + d) (l + d) = gap t l := by
  simp only [gap]
  bv_omega

/-- The slot, the completion and the position depend on `t_us` through the gap, so all that moves with both times is the
recorded arrival time (R115). -/
theorem afterByte_shift (d : Micros) :
    afterByte (tUs + d) tMs data { s with lastByteUs := s.lastByteUs + d } =
      { afterByte tUs tMs data s with lastByteUs := tUs + d } := by
  simp [afterByte, bytePosition, byteSlot, byteCompletes, isCandidate, gap_add_add]

end

/-- Settles O18. -/
theorem byteMillisUnusedUnlessCompleting : Obligations.ByteMillisUnusedUnlessCompleting := by
  intro s tUs m1 m2 data h
  rw [exec_byte_eq_whenMeaning, afterByte_millis_of_not_completing m2 h, ← exec_byte_eq_whenMeaning]

/-- Settles O19, by `afterByte_shift`. -/
theorem byteDependsOnMicrosOnlyThroughGap : Obligations.ByteDependsOnMicrosOnlyThroughGap := by
  intro s t tUs d tMs data h
  obtain ⟨hm, rfl⟩ := (execByte_next_iff_afterByte tUs tMs data s t).1 h
  exact (execByte_next_iff_afterByte _ tMs data _ _).2 ⟨hm, (afterByte_shift d).symm⟩

/-- The modular gap of two stamps is the elapsed true time, under duty H-9 (R101, R213). -/
theorem gap_stamp_toNat {earlier later : Nat} (h : dutyWithinWrap earlier later) :
    (gap (stamp later) (stamp earlier)).toNat = later - earlier := by
  obtain ⟨hle, hlt⟩ := h
  simp only [gap, stamp]
  bv_omega

/-- The break comparator on two stamps, under duty H-9 (R102). -/
theorem showsBreak_gap_stamp_iff {earlier later : Nat} (h : dutyWithinWrap earlier later) :
    showsBreak (gap (stamp later) (stamp earlier)) = true ↔ 88 < later - earlier := by
  rw [showsBreak_gap_iff, ← gap, gap_stamp_toNat h]

/-- Settles O21. -/
theorem gapIsTrueElapsedTime : Obligations.GapIsTrueElapsedTime :=
  fun _ _ h => ⟨gap_stamp_toNat h, showsBreak_gap_stamp_iff h⟩

/-! ### The paths -/

theorem isCandidate_iff (tUs : Micros) (s : State) :
    isCandidate tUs s ↔ 88 < (tUs - s.lastByteUs).toNat ∨ (s.syncState = .receiving ∧ s.chanCnt = 0#10) :=
  or_congr_left (showsBreak_gap_iff _ _)

/-- A discarded byte leaves its arrival time and nothing else (R105). -/
theorem exec_byte_discarded {tUs : Micros} (tMs : Millis) (data : Byte) {s : State} (hr : s.resetSeen = true)
    (hy : s.syncState = .awaitingBreak) (hc : s.chanCnt = 0#10) (hb : showsBreak (gap tUs s.lastByteUs) = false) :
    exec (.byte tUs tMs data) s = .next { s with lastByteUs := tUs, rsp := some 0x000#10 } := by
  rw [exec_byte_of_meaning hr ((positionHasMeaning_iff s).2 (.inl ⟨hy, hc⟩)), afterByte_discarded hb hy, State.respond,
    rspWord_flag_false]
  rfl

/-- Settles O12. -/
theorem byteWithoutBreakInAwaitingBreakIsDiscarded : Obligations.ByteWithoutBreakInAwaitingBreakIsDiscarded := by
  intro s tUs tMs data hr hy hc hgap
  exact exec_byte_discarded tMs data hr hy hc ((showsBreak_gap_false_iff _ _).2 hgap)

/-- Settles O13: the candidate stores to slot 0. -/
theorem byteWithBreakAndNullStartCodeStartsFrame : Obligations.ByteWithBreakAndNullStartCodeStartsFrame := by
  intro s tUs tMs hr hm h
  have hcand := (isCandidate_iff tUs s).2 h
  have hslot : byteSlot tUs 0x00#8 s = some 0 := byteSlot_candidate hcand
  refine ⟨_, exec_byte_of_meaning hr hm, ?_, memGet_afterByte_same hslot, fun a => memGet_afterByte_other hslot⟩
  rw [afterByte_startCode hcand rfl, State.respond, rspWord_flag_false]
  rfl

/-- Settles O14. -/
theorem byteWithBreakAndOtherStartCodeIsRejected : Obligations.ByteWithBreakAndOtherStartCodeIsRejected := by
  intro s tUs tMs data hr hm hd h
  rw [exec_byte_of_meaning hr hm, afterByte_rejected ((isCandidate_iff tUs s).2 h) hd, State.respond, rspWord_flag_false]
  rfl

/-- Settles O15: the slot is `byteSlot`'s on both sides of the last channel, and only the registers differ there. -/
theorem byteInFrameStoresChannel : Obligations.ByteInFrameStoresChannel := by
  intro s tUs tMs data k hr hy hk h1 h512 hgap
  have hb := (showsBreak_gap_false_iff _ _).2 hgap
  have hcnt : s.chanCnt.toNat = k := by
    rw [hk, BitVec.toNat_ofNat]
    exact Nat.mod_eq_of_lt (by omega)
  have hc : s.chanCnt ≠ 0#10 := fun h0 => by simp [h0] at hcnt; omega
  have hm : s.positionHasMeaning = true := (positionHasMeaning_iff s).2 (.inr ⟨hy, by omega⟩)
  have hslot : byteSlot tUs data s = some k := hcnt ▸ byteSlot_channel hb hy hc
  refine ⟨_, exec_byte_of_meaning hr hm, memGet_afterByte_same hslot, fun a => memGet_afterByte_other hslot, ?_, ?_⟩
  · intro hlt
    have hnext : s.chanCnt + 1#10 = BitVec.ofNat 10 (k + 1) := by rw [hk, BitVec.ofNat_add]
    rw [afterByte_channel hb hy hc (by omega), hnext, State.respond, rspWord_flag_false, ← hy]
    rfl
  · rintro rfl
    rw [afterByte_completing hb hy hk]
    exact ⟨rfl, rfl, rfl⟩

section

variable {tUs : Micros} {s : State}

theorem positionHasMeaning_of_byteCompletes (h : byteCompletes tUs s = true) : s.positionHasMeaning = true := by
  obtain ⟨_, hy, hc⟩ := byteCompletes_iff.1 h
  exact (positionHasMeaning_iff s).2 (.inr ⟨hy, by rw [hc]; decide⟩)

/-- A completing BYTE: the registers it writes, with its byte in slot 512 (R109). -/
theorem afterByte_of_byteCompletes (tMs : Millis) (data : Byte) (h : byteCompletes tUs s = true) :
    afterByte tUs tMs data s =
      { s with syncState := .awaitingBreak, chanCnt := 0#10, lastByteUs := tUs, lastFrameMs := tMs,
               frameReceived := true, buf := memSet s.buf 512 data, rsp := some 0x100#10 } := by
  obtain ⟨hb, hy, hc⟩ := byteCompletes_iff.1 h
  rw [afterByte_completing hb hy hc, State.respond, rspWord_flag_true]
  rfl

theorem exec_byte_completing (tMs : Millis) (data : Byte) (hr : s.resetSeen = true) (h : byteCompletes tUs s = true) :
    exec (.byte tUs tMs data) s = .next
      { s with syncState := .awaitingBreak, chanCnt := 0#10, lastByteUs := tUs, lastFrameMs := tMs,
               frameReceived := true, buf := memSet s.buf 512 data, rsp := some 0x100#10 } := by
  rw [exec_byte_of_meaning hr (positionHasMeaning_of_byteCompletes h), afterByte_of_byteCompletes tMs data h]

end

/-- Settles O16. -/
theorem byte513CompletesFrame : Obligations.Byte513CompletesFrame := by
  intro s tUs tMs data hr hy hc hgap
  have hcomp : byteCompletes tUs s = true := byteCompletes_iff.2 ⟨(showsBreak_gap_false_iff _ _).2 hgap, hy, hc⟩
  exact ⟨_, exec_byte_completing tMs data hr hcomp, rfl, memGet_memSet_same _ _ _, fun a ha => memGet_memSet_other _ _ ha⟩

/-- After a break the next state of a BYTE is the same from every position (R104). -/
theorem afterByte_setPosition_of_break {tUs : Micros} (tMs : Millis) (data : Byte) {s : State}
    (hb : showsBreak (gap tUs s.lastByteUs) = true) (y : SyncState) (c : Count) :
    afterByte tUs tMs data (s.setPosition y c) = afterByte tUs tMs data s := by
  have hcand : isCandidate tUs s := .inl hb
  have hcand' : isCandidate tUs (s.setPosition y c) := .inl hb
  by_cases hd : data = 0x00#8
  · rw [afterByte_startCode hcand' hd, afterByte_startCode hcand hd]
    rfl
  · rw [afterByte_rejected hcand' hd, afterByte_rejected hcand hd]
    rfl

/-- Settles O20: both positions have a meaning, so neither is refused for it. -/
theorem breakForgetsPosition : Obligations.BreakForgetsPosition := by
  intro s y c tUs tMs data hm hm' hgap
  have hnext : afterByte tUs tMs data { s with syncState := y, chanCnt := c } = afterByte tUs tMs data s :=
    afterByte_setPosition_of_break tMs data ((showsBreak_gap_iff _ _).2 hgap) y c
  rw [exec_byte_eq_whenMeaning, exec_byte_eq_whenMeaning, hnext, whenMeaning, if_pos hm', whenMeaning, if_pos hm]

/-! ### A completing BYTE and a POLL (R184) -/

/-- POLL past the stale window (R134). -/
theorem exec_poll_lost {t : Millis} {s : State} (hm : s.resetSeen = true ∧ s.positionHasMeaning = true)
    (hf : s.frameReceived = true) (he : 5000 < (t - s.lastFrameMs).toNat) :
    exec (.poll t) s = .next { s with frameReceived := false, rsp := some 0x100#10 } := by
  refine (execPoll_next_iff t s _).2 ⟨hm, .inl ⟨hf, (isStale_elapsed_iff _ _).2 he, ?_⟩⟩
  rw [State.respond, rspWord_flag_true]
  rfl

/-- POLL within the stale window (R134). -/
theorem exec_poll_within_window {t : Millis} {s : State} (hm : s.resetSeen = true ∧ s.positionHasMeaning = true)
    (he : (t - s.lastFrameMs).toNat ≤ 5000) : exec (.poll t) s = .next { s with rsp := some 0x000#10 } := by
  have hfresh : isStale (elapsed t s.lastFrameMs) = false := by
    rw [← Bool.not_eq_true, isStale_elapsed_iff]
    omega
  refine (execPoll_next_iff t s _).2 ⟨hm, .inr ⟨by rw [hfresh, Bool.and_false], ?_⟩⟩
  rw [State.respond, rspWord_flag_false]

/-- Settles O38: the BYTE writes the flag that POLL clears, and its completion does not depend on the flag. -/
theorem pollAndCompletionOrdersEndAlike : Obligations.PollAndCompletionOrdersEndAlike := by
  intro s tUs tMs t data hr hf hcomp hlost hfresh
  have hm := positionHasMeaning_of_byteCompletes hcomp
  refine ⟨_, _,
    (runOps_cons_iff _ _ _ _ _).2 ⟨_, _, exec_byte_completing tMs data hr hcomp,
      (runOps_cons_iff _ _ _ _ _).2 ⟨_, _, exec_poll_within_window ⟨hr, rfl⟩ hfresh, runOps_nil _, rfl⟩, rfl⟩,
    (runOps_cons_iff _ _ _ _ _).2 ⟨_, _, exec_poll_lost ⟨hr, hm⟩ hf hlost,
      (runOps_cons_iff _ _ _ _ _).2 ⟨_, _, exec_byte_completing tMs data hr hcomp, runOps_nil _, rfl⟩, rfl⟩,
    rfl, rfl⟩

end Sys2Proof.Machine

/-! PROOFS. Runs of received bytes: bytes ignored in `AwaitingBreak` (R110), a frame received whole (R116), the position as a
function of the bytes so far, from which a frame completes exactly after the shape of one (R112), and a frame on the line
under the host's duties (R190). -/

namespace Sys2Proof.Machine

open Sys2Proof.Safety

/-! ### Runs -/

/-- After reset, at a position with a meaning, every run of operations answers (R170). -/
theorem runOps_answers (is : List Instr) {s : State} (hm : s.resetSeen = true ∧ s.positionHasMeaning = true) :
    ∃ u rs, runOps is s = some (u, rs) := by
  induction is generalizing s with
  | nil => exact ⟨s, [], rfl⟩
  | cons i is ih =>
    obtain ⟨t, ht⟩ := exec_answers i hm.1 hm.2
    obtain ⟨u, rs, hu⟩ := ih (exec_next_meaning ht)
    exact ⟨u, _, (runOps_cons_iff _ _ _ _ _).2 ⟨t, rs, ht, hu, rfl⟩⟩

/-- The last operation of a run, and its response. -/
theorem runOps_concat_iff (is : List Instr) (i : Instr) (s u : State) (rs : List RspWord) :
    runOps (is ++ [i]) s = some (u, rs) ↔
      ∃ t rs', runOps is s = some (t, rs') ∧ exec i t = .next u ∧ rs = rs' ++ [u.rsp.getD 0#10] := by
  rw [runOps_append_iff]
  constructor
  · rintro ⟨t, rs', rs2, hrun, hlast, rfl⟩
    obtain ⟨v, rs3, hi, hnil, rfl⟩ := (runOps_cons_iff _ _ _ _ _).1 hlast
    obtain ⟨rfl, rfl⟩ : v = u ∧ [] = rs3 := by simpa using hnil
    exact ⟨t, rs', hrun, hi, rfl⟩
  · rintro ⟨t, rs', hrun, hi, rfl⟩
    exact ⟨t, rs', _, hrun, (runOps_cons_iff _ _ _ _ _).2 ⟨u, [], hi, rfl, rfl⟩, rfl⟩

/-- A run of bytes records the arrival time of the last of them (R103). -/
theorem runOps_bytes_lastByteUs {as : List Arrival} {s u : State} {rs : List RspWord}
    (h : runOps (as.map Arrival.op) s = some (u, rs)) : u.lastByteUs = lastStamp s.lastByteUs as := by
  induction as generalizing s rs with
  | nil =>
    obtain ⟨rfl, _⟩ : s = u ∧ [] = rs := by simpa using h
    rfl
  | cons a as ih =>
    obtain ⟨t, rs', ht, hrun, _⟩ := (runOps_cons_iff _ _ _ _ _).1 h
    obtain ⟨_, rfl⟩ := (execByte_next_iff_afterByte a.tUs a.tMs a.data s t).1 ht
    exact ih hrun

/-- Settles O46, by induction over the bytes: each is discarded, and the position stays. -/
theorem surplusBytesAreIgnored : Obligations.SurplusBytesAreIgnored := by
  intro s as hr hy hc hq
  induction as generalizing s with
  | nil => exact ⟨s, rfl, rfl⟩
  | cons a as ih =>
    obtain ⟨hb, hq⟩ := (quiet_cons_iff _ _ _).1 hq
    obtain ⟨u, hrun, hu⟩ := ih { s with lastByteUs := a.tUs, rsp := some 0x000#10 } hr hy hc hq
    exact ⟨u, (runOps_cons_iff _ _ _ _ _).2 ⟨_, _, exec_byte_discarded a.tMs a.data hr hy hc hb, hrun, rfl⟩, hu⟩

/-! ### A frame received whole -/

/-- One more channel byte on the shape of a frame's start (R108). -/
theorem frameStart_succ_concat_iff (k : Nat) (last : Micros) (as : List Arrival) (b : Arrival) :
    frameStart (k + 1) last (as ++ [b]) = true ↔
      frameStart k last as = true ∧ showsBreak (gap b.tUs (lastStamp last as)) = false := by
  cases as with
  | nil => simp [frameStart]
  | cons a as => simp [frameStart, quiet_append, quiet, lastStamp, and_assoc]

/-- In `u` the bytes `as` have just been received as a whole frame (R109, R116). -/
structure FrameReceived (as : List Arrival) (u : State) : Prop where
  resetSeen : u.resetSeen = true
  awaitingBreak : u.syncState = .awaitingBreak
  count : u.chanCnt = 0#10
  frameReceived : u.frameReceived = true
  lastFrameMs : as.getLast?.map Arrival.tMs = some u.lastFrameMs
  slot : ∀ (i : Nat) (a : Arrival), 1 ≤ i → as[i]? = some a → memGet u.buf i = a.data

/-- The 512th channel byte completes the frame in progress (R109). -/
theorem FrameInProgress.receive_lastByte {s u : State} {bs : List Arrival} {b : Arrival} (a : Arrival)
    (h : FrameInProgress s bs u) (hlen : bs.length = 511) (hb : showsBreak (gap b.tUs u.lastByteUs) = false) :
    ∃ v, exec b.op u = .next v ∧ v.rsp = some 0x100#10 ∧ FrameReceived (a :: bs ++ [b]) v := by
  have hcomp : byteCompletes b.tUs u = true :=
    byteCompletes_iff.2 ⟨hb, h.receiving, BitVec.eq_of_toNat_eq (by rw [h.count, hlen]; rfl)⟩
  refine
    ⟨_, exec_byte_completing b.tMs b.data h.resetSeen hcomp, rfl,
      { resetSeen := h.resetSeen
        awaitingBreak := rfl
        count := rfl
        frameReceived := rfl
        lastFrameMs := by rw [List.getLast?_concat]; rfl
        slot := fun i c hi hc => ?_ }⟩
  obtain ⟨j, rfl⟩ : ∃ j, i = j + 1 := ⟨i - 1, by omega⟩
  have hget := h.memGet_channel b c j hc
  rwa [hlen] at hget

/-- Bytes of the shape of a frame are received as one, from every position with a meaning (R116). -/
theorem runOps_frame {s : State} {as : List Arrival} (hr : s.resetSeen = true) (hm : s.positionHasMeaning = true)
    (h : isFrame s.lastByteUs as = true) :
    ∃ u, runOps (as.map Arrival.op) s = some (u, List.replicate 512 0x000#10 ++ [0x100#10]) ∧ FrameReceived as u := by
  obtain ⟨f, b, rfl⟩ := as.eq_nil_or_concat'.resolve_left (by rintro rfl; cases h)
  obtain ⟨hstart, hb⟩ := (frameStart_succ_concat_iff 511 _ f b).1 h
  obtain ⟨a, bs, rfl, _⟩ := (frameStart_iff _ _ _).1 hstart
  obtain ⟨u, hrun, hlen, hprog⟩ := FrameInProgress.of_frameStart hr hm le_rfl hstart
  rw [← runOps_bytes_lastByteUs hrun] at hb
  obtain ⟨v, hv, hrsp, hrec⟩ := hprog.receive_lastByte a hlen hb
  refine ⟨v, ?_, hrec⟩
  rw [List.map_append]
  exact (runOps_concat_iff _ _ _ _ _).2 ⟨u, _, hrun, hv, by rw [hrsp]; rfl⟩

/-- Settles O43: after the frame each slot answers by READ. -/
theorem fullFrameIsReceived : Obligations.FullFrameIsReceived := by
  intro s as hr hm h
  obtain ⟨u, hrun, hrec⟩ := runOps_frame hr hm h
  have hmu : u.positionHasMeaning = true := (positionHasMeaning_iff u).2 (.inl ⟨hrec.awaitingBreak, hrec.count⟩)
  have hlen : as.length = 513 := by
    rw [← List.length_map (f := Arrival.op), ← runOps_length hrun, List.length_append, List.length_replicate]
    rfl
  refine ⟨u, hrun, hrec.frameReceived, hrec.awaitingBreak, hrec.count, hrec.lastFrameMs, fun i a hi ha => ?_⟩
  obtain ⟨hlt, _⟩ := List.getElem?_eq_some_iff.1 ha
  rw [exec_read_channel ⟨hrec.resetSeen, hmu⟩ hrec.frameReceived hi (by omega), hrec.slot i a hi ha]

/-! ### The position as a function of the bytes so far -/

/-- The bytes end in a start code and `k` channel bytes, where the byte before them arrived at `last` (R116). -/
def endsInFrameStart (k : Nat) (last : Micros) (as : List Arrival) : Prop :=
  ∃ pre f, as = pre ++ f ∧ frameStart k (lastStamp last pre) f = true

theorem not_endsInFrameStart_nil (k : Nat) (last : Micros) : ¬endsInFrameStart k last [] := by
  rintro ⟨pre, f, h, hstart⟩
  obtain ⟨_, rfl⟩ := List.append_eq_nil_iff.1 h.symm
  cases hstart

/-- The last byte is itself the start code. -/
theorem endsInFrameStart_zero_concat_iff (last : Micros) (as : List Arrival) (b : Arrival) :
    endsInFrameStart 0 last (as ++ [b]) ↔ showsBreak (gap b.tUs (lastStamp last as)) = true ∧ b.data = 0x00#8 := by
  constructor
  · rintro ⟨pre, f, h, hstart⟩
    obtain ⟨a, bs, rfl, hb, hd, hlen, _⟩ := (frameStart_iff _ _ _).1 hstart
    obtain rfl := List.length_eq_zero_iff.1 hlen
    obtain ⟨rfl, hab⟩ := List.append_inj' h rfl
    obtain rfl : b = a := by simpa using hab
    exact ⟨hb, hd⟩
  · rintro ⟨hb, hd⟩
    exact ⟨as, [b], rfl, (frameStart_iff _ _ _).2 ⟨b, [], rfl, hb, hd, rfl, rfl⟩⟩

/-- The last byte is a further channel byte. -/
theorem endsInFrameStart_succ_concat_iff (k : Nat) (last : Micros) (as : List Arrival) (b : Arrival) :
    endsInFrameStart (k + 1) last (as ++ [b]) ↔
      showsBreak (gap b.tUs (lastStamp last as)) = false ∧ endsInFrameStart k last as := by
  constructor
  · rintro ⟨pre, f, h, hstart⟩
    obtain ⟨f, c, rfl⟩ := f.eq_nil_or_concat'.resolve_left (by rintro rfl; cases hstart)
    rw [← List.append_assoc] at h
    obtain ⟨rfl, hbc⟩ := List.append_inj' h rfl
    obtain rfl : b = c := by simpa using hbc
    obtain ⟨hstart, hlast⟩ := (frameStart_succ_concat_iff _ _ _ _).1 hstart
    exact ⟨lastStamp_append _ pre f ▸ hlast, pre, f, rfl, hstart⟩
  · rintro ⟨hlast, pre, f, rfl, hstart⟩
    rw [lastStamp_append] at hlast
    exact ⟨pre, f ++ [b], List.append_assoc _ _ _, (frameStart_succ_concat_iff _ _ _ _).2 ⟨hstart, hlast⟩⟩

/-- A byte without a break goes to slot `n` (R108). -/
def expectsChannel (n : Nat) (s : State) : Prop := s.syncState = .receiving ∧ s.chanCnt.toNat = n

/-- In `Receiving`, a reachable count is that of a slot for a channel (R23). -/
theorem chanCnt_bounds_of_reachable {s : State} (hp : positionReachable s = true) (hy : s.syncState = .receiving) :
    1 ≤ s.chanCnt.toNat ∧ s.chanCnt.toNat ≤ 512 := by
  simpa [positionReachable, hy, Config.nchan] using hp

/-- From a reachable position, a byte leaves channel `n` to be expected iff it is a start code and `n` is 1, or it is the
channel byte before channel `n` (R104, R106, R108). -/
theorem expectsChannel_afterByte_iff (tUs : Micros) (tMs : Millis) (data : Byte) (n : Nat) {s : State}
    (hp : positionReachable s = true) :
    expectsChannel n (afterByte tUs tMs data s) ↔
      (showsBreak (gap tUs s.lastByteUs) = true ∧ data = 0x00#8 ∧ n = 1) ∨
      (showsBreak (gap tUs s.lastByteUs) = false ∧ s.syncState = .receiving ∧ s.chanCnt.toNat < 512 ∧
        n = s.chanCnt.toNat + 1) := by
  cases hb : showsBreak (gap tUs s.lastByteUs) with
  | true =>
    have hcand : isCandidate tUs s := .inl hb
    by_cases hd : data = 0x00#8 <;> simp [expectsChannel, bytePosition_candidate hcand, hd, eq_comm]
  | false =>
    rcases hy : s.syncState with _ | _
    · simp [expectsChannel, bytePosition_discard hb hy]
    · obtain ⟨h1, hle⟩ := chanCnt_bounds_of_reachable hp hy
      have hc : s.chanCnt ≠ 0#10 := fun h => by simp [h] at h1
      by_cases h512 : s.chanCnt = 512#10
      · simp [expectsChannel, bytePosition_channel hb hy hc, h512]
      · have hlt : s.chanCnt.toNat < 512 := lt_of_le_of_ne hle fun h => h512 (BitVec.eq_of_toNat_eq h)
        have hnext : (s.chanCnt + 1#10).toNat = s.chanCnt.toNat + 1 := by
          rw [BitVec.toNat_add]
          exact Nat.mod_eq_of_lt (by simp; omega)
        rw [expectsChannel, afterByte_syncState, afterByte_chanCnt, bytePosition_channel hb hy hc, if_neg h512, hnext]
        simp [hlt, eq_comm (a := n)]

/-- A byte completes a frame iff it is the byte of channel 512 (R109). -/
theorem byteCompletes_iff_expectsChannel (tUs : Micros) (s : State) :
    byteCompletes tUs s = true ↔ showsBreak (gap tUs s.lastByteUs) = false ∧ expectsChannel 512 s := by
  rw [byteCompletes_iff, expectsChannel, ← BitVec.toNat_inj]
  rfl

/-- A run of one byte or more from `AwaitingBreak` starts at `(AwaitingBreak, 0)`: every other pair is refused (R23, R173). -/
theorem positionReachable_of_runOps_bytes {s u : State} {as : List Arrival} {rs : List RspWord}
    (hy : s.syncState = .awaitingBreak) (hne : as ≠ []) (h : runOps (as.map Arrival.op) s = some (u, rs)) :
    positionReachable s = true := by
  obtain ⟨a, as, rfl⟩ := List.exists_cons_of_ne_nil hne
  obtain ⟨t, _, ht, _⟩ := (runOps_cons_iff _ _ _ _ _).1 h
  obtain ⟨⟨_, hm⟩, _⟩ := (execByte_next_iff_afterByte a.tUs a.tMs a.data s t).1 ht
  simpa [positionReachable, State.positionHasMeaning, hy] using hm

/-- Over any bytes from `(AwaitingBreak, 0)`, channel `k + 1` is expected iff the bytes end in a start code and `k` channel
bytes (R23, R116). -/
theorem expectsChannel_iff_endsInFrameStart {s u : State} {as : List Arrival} {rs : List RspWord}
    (hy : s.syncState = .awaitingBreak) (hp : positionReachable s = true)
    (h : runOps (as.map Arrival.op) s = some (u, rs)) :
    positionReachable u = true ∧ ∀ k ≤ 511, expectsChannel (k + 1) u ↔ endsInFrameStart k s.lastByteUs as := by
  induction as using List.reverseRecOn generalizing u rs with
  | nil =>
    obtain ⟨rfl, _⟩ : s = u ∧ [] = rs := by simpa using h
    exact ⟨hp, fun k _ => by simp [expectsChannel, hy, not_endsInFrameStart_nil]⟩
  | append_singleton as b ih =>
    rw [List.map_append] at h
    obtain ⟨t, rs', hrun, hb, _⟩ := (runOps_concat_iff _ _ _ _ _).1 h
    obtain ⟨hpt, ih⟩ := ih hrun
    obtain ⟨⟨_, hm⟩, rfl⟩ := (execByte_next_iff_afterByte b.tUs b.tMs b.data t u).1 hb
    refine ⟨afterByte_positionReachable _ _ _ hm, fun k hk => ?_⟩
    rw [expectsChannel_afterByte_iff _ _ _ _ hpt, runOps_bytes_lastByteUs hrun]
    cases k with
    | zero =>
      rw [endsInFrameStart_zero_concat_iff]
      have hne : t.syncState = .receiving → 1 ≠ t.chanCnt.toNat + 1 := fun hy' => by
        have := chanCnt_bounds_of_reachable hpt hy'
        omega
      constructor
      · rintro (⟨hbr, hd, _⟩ | ⟨_, hy', _, hcount⟩)
        · exact ⟨hbr, hd⟩
        · exact absurd hcount (hne hy')
      · rintro ⟨hbr, hd⟩
        exact .inl ⟨hbr, hd, rfl⟩
    | succ k =>
      rw [endsInFrameStart_succ_concat_iff, ← ih k (by omega)]
      constructor
      · rintro (⟨_, _, hcount⟩ | ⟨hq, hy', _, hcount⟩)
        · omega
        · exact ⟨hq, hy', by omega⟩
      · rintro ⟨hq, hy', hcount⟩
        exact .inr ⟨hq, hy', by omega, by omega⟩

/-- Settles O44: the last byte completes a frame iff it is the byte of channel 512, and then the bytes before it end in a start
code and 511 channel bytes. -/
theorem frameCompletesExactlyAfterFrameShape : Obligations.FrameCompletesExactlyAfterFrameShape := by
  intro s u as rs hy h
  change _ ↔ endsInFrameStart 512 s.lastByteUs as
  rcases List.eq_nil_or_concat' as with rfl | ⟨as, b, rfl⟩
  · obtain ⟨_, rfl⟩ : s = u ∧ [] = rs := by simpa using h
    simp [not_endsInFrameStart_nil]
  · have hp := positionReachable_of_runOps_bytes hy (by simp) h
    rw [List.map_append] at h
    obtain ⟨t, rs', hrun, hb, rfl⟩ := (runOps_concat_iff _ _ _ _ _).1 h
    obtain ⟨_, rfl⟩ := (execByte_next_iff_afterByte b.tUs b.tMs b.data t u).1 hb
    obtain ⟨_, hexpects⟩ := expectsChannel_iff_endsInFrameStart hy hp hrun
    rw [endsInFrameStart_succ_concat_iff, ← hexpects 511 le_rfl, ← runOps_bytes_lastByteUs hrun,
      ← byteCompletes_iff_expectsChannel, List.getLast?_concat]
    cases hc : byteCompletes b.tUs t <;> simp [afterByte, hc]

/-! ### A frame on the line (R190) -/

/-- Where the true times of the bytes on the line show no break, the bytes handed over show none (H-3, H-9). -/
theorem quiet_of_quietLine {last : Nat} {bs : List LineByte} {as : List Arrival}
    (htime : as.map Arrival.tUs = bs.map fun b => stamp b.atUs) (hq : quietLine last bs = true) :
    quiet (stamp last) as = true := by
  induction bs generalizing last as with
  | nil =>
    obtain rfl := List.map_eq_nil_iff.1 htime
    rfl
  | cons b bs ih =>
    obtain ⟨a, as, rfl, ha, has⟩ := List.map_eq_cons_iff.1 htime
    simp only [quietLine, Config.breakUs, Bool.and_eq_true, decide_eq_true_eq] at hq
    obtain ⟨⟨hle, hgap⟩, hq⟩ := hq
    have hnb : showsBreak (gap (stamp b.atUs) (stamp last)) = false := by
      rw [← Bool.not_eq_true, showsBreak_gap_stamp_iff ⟨hle, by omega⟩]
      omega
    exact (quiet_cons_iff _ _ _).2 ⟨by rw [ha]; exact hnb, by rw [ha]; exact ih has hq⟩

/-- The bytes handed over have the shape of a frame where those on the line have it in true time (H-2, H-3, H-9). -/
theorem isFrame_of_frameOnLine {last : Nat} {bs : List LineByte} {as : List Arrival}
    (hdata : as.map Arrival.data = bs.map LineByte.data) (htime : as.map Arrival.tUs = bs.map fun b => stamp b.atUs)
    (h : frameOnLine last bs = true) : isFrame (stamp last) as = true := by
  cases bs with
  | nil => cases h
  | cons b bs =>
    simp only [frameOnLine, Bool.and_eq_true, decide_eq_true_eq, beq_iff_eq] at h
    obtain ⟨⟨⟨⟨hgap, hwrap⟩, hsc⟩, hlen⟩, hq⟩ := h
    obtain ⟨a, as, rfl, ha, has⟩ := List.map_eq_cons_iff.1 htime
    obtain ⟨hd, hds⟩ := List.cons.inj hdata
    have hbr : showsBreak (gap a.tUs (stamp last)) = true := by
      rw [ha]
      exact (showsBreak_gap_stamp_iff ⟨by omega, hwrap⟩).2 hgap
    have hlen' : as.length = bs.length := by simpa using congrArg List.length hds
    exact (frameStart_iff _ _ _).2
      ⟨a, as, rfl, hbr, hd.trans hsc, hlen'.trans hlen, by rw [ha]; exact quiet_of_quietLine has hq⟩

/-- Without INIT the operations that write the synchronizer's state are the received bytes (R32). -/
theorem filter_writesSynchronizer_eq_bytes {is : List Instr} (h : .init ∉ is) :
    is.filter writesSynchronizer = (bytesOf is).map Arrival.op := by
  induction is with
  | nil => rfl
  | cons i is ih =>
    obtain ⟨hi, his⟩ := not_or.1 (List.mem_cons.not.1 h)
    rw [bytesOf_cons, List.map_append, ← ih his]
    cases i with
    | init => exact absurd rfl hi
    | byte u m d => rfl
    | read n => rfl
    | conn m => rfl
    | poll m => rfl
    | flag => rfl

/-- Settles O53: the consumers' operations left out, the run is that of the received bytes (O47), which have the shape of a
frame. -/
theorem frameOnLineIsReceived : Obligations.FrameOnLineIsReceived := by
  intro s bs ops last hr hm hlast hline hdata htime hinit
  have hframe : isFrame s.lastByteUs (bytesOf ops) = true := hlast ▸ isFrame_of_frameOnLine hdata htime hline
  obtain ⟨v, hv, hrec⟩ := runOps_frame hr hm hframe
  obtain ⟨u, rs, hu⟩ := runOps_answers ops ⟨hr, hm⟩
  obtain ⟨v', rs', hv', hsame⟩ := consumersDoNotDisturbSynchronizer ops s u rs hu
  rw [filter_writesSynchronizer_eq_bytes hinit, hv] at hv'
  obtain ⟨rfl, _⟩ := Prod.mk.inj (Option.some.inj hv')
  obtain ⟨f, x, rfl⟩ := (sameSynchronizer_iff u v).1 hsame
  refine ⟨u, rs, hu, hrec.awaitingBreak, hrec.count, hrec.lastFrameMs, fun i b hi hb => ?_⟩
  have hget : (bytesOf ops)[i]?.map Arrival.data = some b.data := by
    rw [← List.getElem?_map, hdata, List.getElem?_map, hb]
    rfl
  obtain ⟨a, ha, hab⟩ := Option.map_eq_some_iff.1 hget
  rw [← hab]
  exact hrec.slot i a hi ha

end Sys2Proof.Machine

/-! PROOFS. The Frame Store & Liveness Tracker: one answer of READ, CONN and POLL as a word (R130, R132, R134), the regions of
liveness (R137), the decay of CONN by time alone (R133), and runs without a completion: silence while no frame is received
(R131, R135), and the one loss declared under the host's duties (R190, R211). -/

namespace Sys2Proof.Machine

open Sys2Proof.Safety

/-! ### READ, CONN and POLL, one answer each -/

/-- The answer of value 0 and flag 0 is `0x000` (R78). -/
theorem respond_zero_eq (s : State) : s.respond false 0#8 = { s with rsp := some 0x000#10 } := by
  rw [State.respond, rspWord_flag_false]

/-- While no frame is received, a consumer's operation is answered `0x000` (R131, R135). -/
theorem exec_consumer_answers_zero {i : Instr} {s : State} (hi : writesSynchronizer i = false)
    (hm : s.resetSeen = true ∧ s.positionHasMeaning = true) (hf : s.frameReceived = false) :
    exec i s = .next { s with rsp := some 0x000#10 } := by
  rw [exec_consumer_without_frame hi hm hf, respond_zero_eq]

/-- Settles O23. -/
theorem readAnswersStoredByteOrZero : Obligations.ReadAnswersStoredByteOrZero := by
  intro s n hr hm
  refine ⟨decode_encode (.read n), (execRead_next_iff n s _).2 ⟨⟨hr, hm⟩, ?_⟩⟩
  simp only [channelInRange_iff]
  by_cases h : s.frameReceived = true ∧ 1 ≤ n.toNat ∧ n.toNat ≤ 512
  · rw [if_pos h, if_pos h, State.respond, rspWord_val]
  · rw [if_neg h, if_neg h, respond_zero_eq]

/-- Settles O24. -/
theorem connAnswersWithinLivenessWindow : Obligations.ConnAnswersWithinLivenessWindow := by
  intro s m hr hm
  refine ⟨decode_encode (.conn m), (execConn_next_iff m s _).2 ⟨⟨hr, hm⟩, ?_⟩⟩
  simp only [State.respond, rspWord_flag, Bool.and_eq_true, isLive_elapsed_iff]

/-- Settles O25: the loss is declared, or no frame is received, or the stale window has not passed. -/
theorem pollClearsFlagPastStaleWindow : Obligations.PollClearsFlagPastStaleWindow := by
  intro s m hr hm
  refine ⟨decode_encode (.poll m), ?_⟩
  by_cases h : s.frameReceived = true ∧ 5000 < (m - s.lastFrameMs).toNat
  · rw [if_pos h, exec_poll_lost ⟨hr, hm⟩ h.1 h.2]
  · rw [if_neg h]
    by_cases hf : s.frameReceived = true
    · exact exec_poll_within_window ⟨hr, hm⟩ (Nat.le_of_not_lt fun he => h ⟨hf, he⟩)
    · exact exec_consumer_answers_zero (i := .poll m) rfl ⟨hr, hm⟩ (Bool.eq_false_of_not_eq_true hf)

/-- Settles O35: the answers of R130, R132 and R136 with `frame_received` 1, and POLL on either side of the stale window. -/
theorem livenessHasThreeRegions : Obligations.LivenessHasThreeRegions := by
  intro s m n hr hm hf h1 h512 e
  refine ⟨?_, ?_, ?_, exec_poll_within_window ⟨hr, hm⟩, fun he => ⟨_, exec_poll_lost ⟨hr, hm⟩ hf he, rfl, ?_⟩⟩
  · rw [(readAnswersStoredByteOrZero s n hr hm).2, if_pos ⟨hf, h1, h512⟩]
  · rw [(flagAnswersFrameReceived s hr hm).2, if_pos hf]
  · rw [(connAnswersWithinLivenessWindow s m hr hm).2]
    simp only [hf, true_and, e]
  · exact ⟨exec_consumer_answers_zero rfl ⟨hr, hm⟩ rfl, exec_consumer_answers_zero rfl ⟨hr, hm⟩ rfl,
      exec_consumer_answers_zero rfl ⟨hr, hm⟩ rfl, exec_consumer_answers_zero rfl ⟨hr, hm⟩ rfl⟩

/-! ### Elapsed time under a clock that does not run backwards (R133 (c), H-5, H-9) -/

/-- The modular elapsed time of two stamps is the true one: the subtraction is that of the gap (R132, R134). -/
theorem elapsed_stamp_toNat {earlier later : Nat} (h : dutyWithinWrap earlier later) :
    (elapsed (stamp later) (stamp earlier)).toNat = later - earlier :=
  gap_stamp_toNat h

/-- The liveness comparator on two stamps (R132). -/
theorem isLive_elapsed_stamp_iff {earlier later : Nat} (h : dutyWithinWrap earlier later) :
    isLive (elapsed (stamp later) (stamp earlier)) = true ↔ later - earlier < 2000 := by
  rw [isLive_elapsed_iff, ← elapsed, elapsed_stamp_toNat h]

/-- The stale comparator on two stamps (R134). -/
theorem isStale_elapsed_stamp_iff {earlier later : Nat} (h : dutyWithinWrap earlier later) :
    isStale (elapsed (stamp later) (stamp earlier)) = true ↔ 5000 < later - earlier := by
  rw [isStale_elapsed_iff, ← elapsed, elapsed_stamp_toNat h]

/-- CONN answers 0 where no frame is received or the liveness window has passed (R132). -/
theorem exec_conn_rsp_zero_iff {m : Millis} {s t : State} (h : exec (.conn m) s = .next t) :
    t.rsp = some 0x000#10 ↔ (s.frameReceived = true → isLive (elapsed m s.lastFrameMs) = false) := by
  obtain ⟨_, rfl⟩ := (execConn_next_iff m s t).1 h
  cases s.frameReceived <;> cases isLive (elapsed m s.lastFrameMs) <;> simp

/-- Settles O36: once past the liveness window, a later time is past it too. -/
theorem connectedDecaysByTimeAlone : Obligations.ConnectedDecaysByTimeAlone := by
  intro s t u completed now later hs hwrap hnow hlater ht ht0 hu
  obtain ⟨hle, hlt⟩ := hwrap
  have hwrapNow : dutyWithinWrap completed now := ⟨hnow, by omega⟩
  rw [exec_conn_rsp_zero_iff ht, hs, ← Bool.not_eq_true, isLive_elapsed_stamp_iff hwrapNow] at ht0
  rw [exec_conn_rsp_zero_iff hu, hs, ← Bool.not_eq_true, isLive_elapsed_stamp_iff ⟨hle, hlt⟩]
  intro hf
  have hpast := ht0 hf
  omega

/-! ### No frame received: silence until a frame completes (R131, R135, R201) -/

/-- A BYTE that answers 0 completes no frame (R79, R109). -/
theorem byteCompletes_eq_false_of_rsp {tUs : Micros} {tMs : Millis} {data : Byte} {s : State}
    (h : (afterByte tUs tMs data s).rsp.getD 0#10 = 0x000#10) : byteCompletes tUs s = false := by
  cases hc : byteCompletes tUs s with
  | false => rfl
  | true => simp [afterByte, hc] at h

/-- With `frame_received` 0, every operation but a completing BYTE answers 0 and leaves it 0. -/
theorem exec_without_frame {i : Instr} {s t : State} (hf : s.frameReceived = false) (h : exec i s = .next t)
    (hb : isByte i = true → t.rsp.getD 0#10 = 0x000#10) : t.frameReceived = false ∧ t.rsp.getD 0#10 = 0x000#10 := by
  obtain ⟨u, m, d, rfl, _, rfl⟩ | ⟨rfl, rfl⟩ | ⟨hm, hi, _⟩ := exec_next_cases_afterByte h
  · have hrsp := hb rfl
    exact ⟨by simp [hf, byteCompletes_eq_false_of_rsp hrsp], hrsp⟩
  · exact ⟨rfl, by simp⟩
  · rw [exec_consumer_answers_zero hi hm hf] at h
    obtain rfl := Host.Outcome.next.inj h
    exact ⟨hf, rfl⟩

/-- Settles O37, by induction over the run (`exec_without_frame`). -/
theorem noSignalAnswersZeroUntilNextFrame : Obligations.NoSignalAnswersZeroUntilNextFrame := by
  intro ops
  induction ops with
  | nil =>
    intro s u rs hf h _
    obtain ⟨rfl, rfl⟩ : s = u ∧ [] = rs := by simpa using h
    exact ⟨hf, by simp⟩
  | cons i is ih =>
    intro s u rs hf h hbyte
    obtain ⟨t, rs', ht, hrun, rfl⟩ := (runOps_cons_iff _ _ _ _ _).1 h
    rw [List.zip_cons_cons, List.forall_mem_cons] at hbyte
    obtain ⟨hfirst, hrest⟩ := hbyte
    obtain ⟨hft, hrsp⟩ := exec_without_frame hf ht hfirst
    obtain ⟨hfu, hzero⟩ := ih t u rs' hft hrun hrest
    exact ⟨hfu, List.forall_mem_cons.2 ⟨hrsp, hzero⟩⟩

/-! ### A loss declared within one period of POLL (R134, R135, R190, R211) -/

/-- Without INIT and without a completion, an operation on a received frame is the POLL that declares its loss, or it leaves
the frame received, with its time, and is no POLL past the stale window. -/
theorem exec_declares_loss_or_keeps_frame {i : Instr} {s t : State} (hf : s.frameReceived = true) (hi : i ≠ .init)
    (h : exec i s = .next t) (hb : isByte i = true → t.rsp.getD 0#10 = 0x000#10) :
    (∃ m, i = .poll m ∧ t.frameReceived = false ∧ t.rsp = some 0x100#10) ∨
    (t.frameReceived = true ∧ t.lastFrameMs = s.lastFrameMs ∧
      ∀ m, i = .poll m → isStale (elapsed m s.lastFrameMs) = false ∧ t.rsp = some 0x000#10) := by
  cases i with
  | byte u m d =>
    obtain ⟨_, rfl⟩ := (execByte_next_iff_afterByte u m d s t).1 h
    have hnc := byteCompletes_eq_false_of_rsp (hb rfl)
    exact .inr ⟨by simp [hf], by simp [afterByte, hnc], nofun⟩
  | read n =>
    obtain ⟨_, rfl⟩ := (execRead_next_iff n s t).1 h
    exact .inr ⟨hf, rfl, nofun⟩
  | conn m =>
    obtain ⟨_, rfl⟩ := (execConn_next_iff m s t).1 h
    exact .inr ⟨hf, rfl, nofun⟩
  | poll m =>
    obtain ⟨_, ⟨_, _, rfl⟩ | ⟨hfresh, rfl⟩⟩ := (execPoll_next_iff m s t).1 h
    · exact .inl ⟨m, rfl, rfl, by simp⟩
    · rw [hf, Bool.true_and] at hfresh
      exact .inr ⟨hf, rfl, by rintro _ ⟨⟩; exact ⟨hfresh, by simp⟩⟩
  | flag =>
    obtain ⟨_, rfl⟩ := (execFlag_next_iff s t).1 h
    exact .inr ⟨hf, rfl, nofun⟩
  | init => exact absurd rfl hi

/-- Among the presented operations with their responses, exactly one POLL is answered `lost`, at `deadline` at the latest. -/
def lossDeclaredOnce (deadline : Nat) (ps : List Presented) (rs : List RspWord) : Prop :=
  ∃ pre p post, ps = pre ++ p :: post ∧ isPoll p.op = true ∧ p.atMs ≤ deadline ∧ rs[pre.length]? = some 0x100#10 ∧
    ∀ (k : Nat) (q : Presented), ps[k]? = some q → isPoll q.op = true → k ≠ pre.length → rs[k]? = some 0x000#10

/-- The POLL that declares the loss, before operations all answered 0. -/
theorem lossDeclaredOnce_cons_lost {deadline : Nat} {p : Presented} {ps : List Presented} {rs : List RspWord}
    (hp : isPoll p.op = true) (hle : p.atMs ≤ deadline) (hlen : rs.length = ps.length) (hrs : ∀ r ∈ rs, r = 0x000#10) :
    lossDeclaredOnce deadline (p :: ps) (0x100#10 :: rs) := by
  refine ⟨[], p, ps, rfl, hp, hle, rfl, fun k q hq _ hk => ?_⟩
  obtain ⟨j, rfl⟩ := Nat.exists_eq_succ_of_ne_zero hk
  obtain ⟨hj, _⟩ := List.getElem?_eq_some_iff.1 (List.getElem?_cons_succ ▸ hq)
  rw [List.getElem?_cons_succ, List.getElem?_eq_getElem (hlen ▸ hj), hrs _ (List.getElem_mem _)]

/-- An operation before, which if it is a POLL is answered 0. -/
theorem lossDeclaredOnce.cons {deadline : Nat} {ps : List Presented} {rs : List RspWord}
    (h : lossDeclaredOnce deadline ps rs) {q : Presented} {r : RspWord} (hq : isPoll q.op = true → r = 0x000#10) :
    lossDeclaredOnce deadline (q :: ps) (r :: rs) := by
  obtain ⟨pre, p, post, rfl, hp, hle, hlost, hother⟩ := h
  refine ⟨q :: pre, p, post, rfl, hp, hle, hlost, fun k q' hk hpoll hne => ?_⟩
  cases k with
  | zero =>
    obtain rfl : q = q' := Option.some.inj hk
    exact congrArg some (hq hpoll)
  | succ k => exact hother k q' hk hpoll fun he => hne (congrArg Nat.succ he)

theorem isPoll_iff (i : Instr) : isPoll i = true ↔ ∃ m, i = .poll m := by
  cases i <;> simp [isPoll]

/-- A POLL not past the stale window comes within it in true time (H-5, H-9). -/
theorem atMs_le_of_not_isStale {p : Presented} {m : Millis} {completed : Nat} (hm : p.op = .poll m)
    (hstamp : ∀ tMs, millisOf p.op = some tMs → tMs = stamp p.atMs) (hwrap : dutyWithinWrap completed p.atMs)
    (hfresh : isStale (elapsed m (stamp completed)) = false) : p.atMs ≤ completed + 5000 := by
  rw [hstamp m (by rw [hm]; rfl), ← Bool.not_eq_true, isStale_elapsed_stamp_iff hwrap] at hfresh
  omega

/-- Settles O54, by induction over the presented operations: each is at most one period after a POLL within the stale window,
so the late one comes after the POLL that declares the loss, and then every answer is 0 (O37). -/
theorem lossIsDeclaredWithinOnePollPeriod : Obligations.LossIsDeclaredWithinOnePollPeriod := by
  intro ps
  induction ps with
  | nil =>
    rintro s u rs completed lastPoll period - - - - - - - - - ⟨p, hp, -⟩
    cases hp
  | cons p ps ih =>
    intro s u rs completed lastPoll period hf hs hlast hclock hperiod hwrap h hinit hbyte hlate
    obtain ⟨t, rs', ht, hrun, rfl⟩ := (runOps_cons_iff _ _ _ _ _).1 h
    obtain ⟨hmono, hstamp⟩ := hclock
    obtain ⟨hpstamp, hstamp⟩ := List.forall_mem_cons.1 hstamp
    obtain ⟨hpperiod, hperiod⟩ := hperiod
    obtain ⟨hpwrap, hwrap⟩ := List.forall_mem_cons.1 hwrap
    obtain ⟨hpinit, hinit⟩ := not_or.1 (List.mem_cons.not.1 hinit)
    rw [List.map_cons, List.zip_cons_cons, List.forall_mem_cons] at hbyte
    obtain ⟨hpbyte, hbyte⟩ := hbyte
    have hdeadline : p.atMs ≤ completed + 5000 + period := by omega
    obtain ⟨m, hpoll, hft, hrsp⟩ | ⟨hft, hst, hfresh⟩ := exec_declares_loss_or_keeps_frame hf (Ne.symm hpinit) ht hpbyte
    · obtain ⟨hfu, hzero⟩ := noSignalAnswersZeroUntilNextFrame _ t u rs' hft hrun hbyte
      have hlen : rs'.length = ps.length := by rw [runOps_length hrun, List.length_map]
      rw [hrsp]
      exact ⟨hfu, lossDeclaredOnce_cons_lost ((isPoll_iff _).2 ⟨m, hpoll⟩) hdeadline hlen hzero⟩
    · have hlastPoll : (if isPoll p.op = true then p.atMs else lastPoll) ≤ completed + 5000 := by
        split
        · next hpoll =>
          obtain ⟨m, hm⟩ := (isPoll_iff _).1 hpoll
          exact atMs_le_of_not_isStale hm hpstamp hpwrap (hs ▸ (hfresh m hm).1)
        · exact hlast
      have hrest : ∃ q ∈ ps, completed + 5000 + period < q.atMs :=
        ((List.exists_mem_cons_iff _ _ _).1 hlate).resolve_left (Nat.not_lt.2 hdeadline)
      obtain ⟨hfu, hloss⟩ := ih t u rs' completed _ period hft (hst.trans hs) hlastPoll
        ⟨(List.pairwise_cons.1 hmono).2, hstamp⟩ hperiod hwrap hrun hinit hbyte hrest
      refine ⟨hfu, lossDeclaredOnce.cons hloss fun hpoll => ?_⟩
      obtain ⟨m, hm⟩ := (isPoll_iff _).1 hpoll
      obtain ⟨_, hrsp⟩ := hfresh m hm
      rw [hrsp]
      rfl

end Sys2Proof.Machine

/-! PROOFS. Progress: whatever is at the port, a step is a next state after reset at a position with a meaning (R161, R170),
and so from every state of the invariant (R23, R30). -/

namespace Sys2Proof.Machine

open Sys2Proof.Safety

/-- After reset, at a position with a meaning, every word is answered: one that spells an operation (R170) and an illegal
one (R80). -/
theorem performWord_answers (w : OpWord) {s : State} (hr : s.resetSeen = true) (hm : s.positionHasMeaning = true) :
    ∃ t, performWord w s = .next t := by
  rcases hd : decode w with e | i
  · exact ⟨_, (performWord_of_decode_error s hd).trans (illegalWord_of_meaning hr hm)⟩
  · rw [performWord_of_decode_ok s hd]
    exact exec_answers i hr hm

/-- After reset, at a position with a meaning, every step is a next state. What remains at the port has no part in whether
the position has a meaning, so a presented word is performed where it still has one. -/
theorem step_answers {s : State} (hr : s.resetSeen = true) (hm : s.positionHasMeaning = true) :
    ∃ t, step s = .next t := by
  rcases hq : s.inputs with _ | ⟨w | _, q⟩
  · exact ⟨_, step_idle hq⟩
  · rw [step_present hq]
    have hmq : (s.setInputs q).positionHasMeaning = true := hm
    exact performWord_answers w hr hmq
  · exact ⟨_, step_rst hq⟩

/-- Settles O41: a state of the invariant has been reset, and its position has a meaning. -/
theorem invariantStatesAlwaysStep : Obligations.InvariantStatesAlwaysStep := by
  rintro s ⟨hr, hreach, _, _⟩
  exact step_answers hr (meaning_of_reachable hreach)

end Sys2Proof.Machine

/-! PROOFS. Exceptions (R170, R171, R173, R202): nothing faults from any state, before the first reset everything but INIT
is refused, and each anomaly is absorbed by the operation that meets it. -/

namespace Sys2Proof.Machine

open Sys2Proof.Safety

/-! ### No fault -/

/-- The two refusals are no faults, so a guarded outcome is a fault only where it has a meaning and is one. -/
theorem noFault_whenMeaning {s : State} {k : Host.Outcome State Fault Refusal}
    (h : s.resetSeen = true → s.positionHasMeaning = true → noFault k = true) : noFault (whenMeaning s k) = true := by
  cases hr : s.resetSeen with
  | false => rw [whenMeaning_beforeFirstReset k hr]; rfl
  | true =>
    cases hm : s.positionHasMeaning with
    | false => rw [whenMeaning_positionWithoutMeaning k hr hm]; rfl
    | true => rw [whenMeaning_of k hr hm]; exact h hr hm

/-- INIT answers everywhere; every other operation is refused, or answers (`exec_answers`). -/
theorem noFault_exec (i : Instr) (s : State) : noFault (exec i s) = true := by
  by_cases hi : i = .init
  · rw [hi, exec_init]
    rfl
  · obtain ⟨k, hk⟩ := exec_eq_whenMeaning s hi
    rw [hk]
    refine noFault_whenMeaning fun hr hm => ?_
    obtain ⟨t, ht⟩ := exec_answers i hr hm
    rw [← whenMeaning_of k hr hm, ← hk, ht]
    rfl

/-- An operation, or the answer to an illegal word. -/
theorem noFault_performWord (w : OpWord) (s : State) : noFault (performWord w s) = true := by
  rcases hd : decode w with e | i
  · rw [performWord_of_decode_error s hd]
    exact noFault_whenMeaning fun _ _ => rfl
  · rw [performWord_of_decode_ok s hd]
    exact noFault_exec i s

theorem noFault_step (s : State) : noFault (step s) = true := by
  rcases hq : s.inputs with _ | ⟨w | _, q⟩
  · rw [step_idle hq]
    rfl
  · rw [step_present hq]
    exact noFault_performWord w _
  · rw [step_rst hq]
    rfl

/-- Settles O31. -/
theorem nothingFaults : Obligations.NothingFaults :=
  ⟨noFault_exec, noFault_step⟩

/-! ### Before the first reset -/

/-- Settles O32: the first of the two refusals stands before every operation but INIT, and before an illegal word. -/
theorem operationBeforeFirstResetIsRefused : Obligations.OperationBeforeFirstResetIsRefused := by
  intro s hr
  refine ⟨fun i hi => ?_, fun w q hq hrow => ?_⟩
  · obtain ⟨k, hk⟩ := exec_eq_whenMeaning s hi
    exact hk.trans (whenMeaning_beforeFirstReset k hr)
  · exact (step_illegalWord hq hrow).trans (whenMeaning_beforeFirstReset _ hr)

/-! ### Anomalies -/

/-- The anomalies of a BYTE (R171): a break inside a frame, a break without the null start code, no break in
`AwaitingBreak`. -/
theorem mem_anomaliesOf_byte_iff {u : Micros} {m : Millis} {d : Byte} {s : State} {a : Anomaly} :
    a ∈ anomaliesOf (.byte u m d) s ↔
      (a = .truncatedFrame ∧ showsBreak (gap u s.lastByteUs) = true ∧ s.syncState = .receiving ∧ 1 ≤ s.chanCnt.toNat) ∨
      (a = .invalidStartCode ∧ showsBreak (gap u s.lastByteUs) = true ∧ d ≠ 0x00#8) ∨
      (a = .discardedByte ∧ showsBreak (gap u s.lastByteUs) = false ∧ s.syncState = .awaitingBreak) := by
  cases hb : showsBreak (gap u s.lastByteUs) with
  | true => simp [anomaliesOf, hb, and_comm]
  | false => simp [anomaliesOf, hb, and_comm]

theorem mem_anomaliesOf_read_iff {n : ChanNum} {s : State} {a : Anomaly} :
    a ∈ anomaliesOf (.read n) s ↔ a = .outOfRangeRead ∧ channelInRange n = false := by
  simp [anomaliesOf, and_comm]

theorem mem_anomaliesOf_poll_iff {m : Millis} {s : State} {a : Anomaly} :
    a ∈ anomaliesOf (.poll m) s ↔
      a = .signalLoss ∧ s.frameReceived = true ∧ isStale (elapsed m s.lastFrameMs) = true := by
  simp [anomaliesOf, and_comm]

/-- No BYTE that completes a frame is an anomaly. -/
theorem byteCompletes_eq_false_of_anomaly {u : Micros} {m : Millis} {d : Byte} {s : State} {a : Anomaly}
    (h : a ∈ anomaliesOf (.byte u m d) s) : byteCompletes u s = false := by
  obtain ⟨_, hb, _⟩ | ⟨_, hb, _⟩ | ⟨_, _, hy⟩ := mem_anomaliesOf_byte_iff.1 h
  · exact byteCompletes_candidate (.inl hb)
  · exact byteCompletes_candidate (.inl hb)
  · exact byteCompletes_eq_false_iff.2 (by simp [hy])

/-- A BYTE that completes no frame touches neither `last_frame_ms` nor `frame_received`, and answers `0x000` (R113). -/
theorem afterByte_of_not_completing {u : Micros} {s : State} (m : Millis) (d : Byte) (h : byteCompletes u s = false) :
    (afterByte u m d s).lastFrameMs = s.lastFrameMs ∧ (afterByte u m d s).frameReceived = s.frameReceived ∧
      (afterByte u m d s).rsp = some 0x000#10 := by
  simp [afterByte, h]

/-- A rejected start code ends in `(AwaitingBreak, 0)` and stores nothing (R107). -/
theorem afterByte_of_invalidStartCode {u : Micros} {d : Byte} {s : State} (m : Millis)
    (hb : showsBreak (gap u s.lastByteUs) = true) (hd : d ≠ 0x00#8) :
    (afterByte u m d s).syncState = .awaitingBreak ∧ (afterByte u m d s).chanCnt = 0#10 ∧
      (afterByte u m d s).buf = s.buf := by
  rw [afterByte_rejected (.inl hb) hd]
  exact ⟨rfl, rfl, rfl⟩

/-- The byte that shows a break is the start code of a new frame, or ends in `AwaitingBreak` (R104, R106, R107). -/
theorem afterByte_position_of_break {u : Micros} {s : State} (m : Millis) (d : Byte)
    (hb : showsBreak (gap u s.lastByteUs) = true) :
    ((afterByte u m d s).syncState = .receiving ∧ (afterByte u m d s).chanCnt = 1#10) ∨
    ((afterByte u m d s).syncState = .awaitingBreak ∧ (afterByte u m d s).chanCnt = 0#10) := by
  by_cases hd : d = 0x00#8
  · rw [afterByte_startCode (.inl hb) hd]
    exact .inl ⟨rfl, rfl⟩
  · obtain ⟨hy, hc, _⟩ := afterByte_of_invalidStartCode m hb hd
    exact .inr ⟨hy, hc⟩

/-- Out of range, READ answers `DEFAULT_VAL` and changes nothing (R130). -/
theorem exec_read_outOfRange {n : ChanNum} {s : State} (hm : s.resetSeen = true ∧ s.positionHasMeaning = true)
    (hn : channelInRange n = false) : exec (.read n) s = .next { s with rsp := some 0x000#10 } :=
  (execRead_next_iff n s _).2 ⟨hm, by rw [if_neg (by simp [hn]), respond_zero_eq]⟩

/-- Settles O33, operation by operation: the anomalies a BYTE, a READ or a POLL can meet; CONN, FLAG and INIT meet none. -/
theorem anomaliesAreAbsorbed : Obligations.AnomaliesAreAbsorbed := by
  intro i s a hr hm ha
  cases i with
  | byte u m d =>
    obtain ⟨hframe, hflag, hrsp⟩ := afterByte_of_not_completing m d (byteCompletes_eq_false_of_anomaly ha)
    refine ⟨_, exec_byte_of_meaning hr hm, hframe, ?_⟩
    obtain ⟨rfl, hb, _⟩ | ⟨rfl, hb, hd⟩ | ⟨rfl, _⟩ := mem_anomaliesOf_byte_iff.1 ha
    · exact ⟨nofun, fun _ => ⟨hflag, hrsp⟩, nofun, fun _ => afterByte_position_of_break m d hb, nofun⟩
    · exact ⟨nofun, fun _ => ⟨hflag, hrsp⟩, fun _ => afterByte_of_invalidStartCode m hb hd, nofun, nofun⟩
    · exact ⟨nofun, fun _ => ⟨hflag, hrsp⟩, nofun, nofun, nofun⟩
  | read n =>
    obtain ⟨rfl, hn⟩ := mem_anomaliesOf_read_iff.1 ha
    exact ⟨_, exec_read_outOfRange ⟨hr, hm⟩ hn, rfl, nofun, fun _ => ⟨rfl, rfl⟩, nofun, nofun, fun _ => rfl⟩
  | poll m =>
    obtain ⟨rfl, hf, he⟩ := mem_anomaliesOf_poll_iff.1 ha
    exact ⟨_, exec_poll_lost ⟨hr, hm⟩ hf ((isStale_elapsed_iff _ _).1 he), rfl, fun _ => ⟨hf, rfl⟩,
      fun hne => absurd rfl hne, nofun, nofun, nofun⟩
  | conn m => cases ha
  | flag => cases ha
  | init => cases ha

end Sys2Proof.Machine
